-- ==== Sys2Proof/Word.lean ====
section
/-! DEFINITION. The word type. The width W of a word is a parameter of the instance (R8), so a word is plain data: its
bits, bit 0 (the least significant, R11) first. R163: "A word is a bit string, and XOR acts on the whole word at once". -/

namespace Sys2Proof

/-- A machine word as its bits, least significant first. A word of the buffer has W of them. -/
abbrev Word := List Bool

/-- An octet of a digest (R14: 8 bits). -/
abbrev Octet := BitVec 8

namespace Word

/-- Bit `i` of a word (R11). -/
def bit (w : Word) (i : Nat) : Bool := w.getD i false

/-- The W-bit word of value `n` (R11). -/
def ofNat (W n : Nat) : Word := (List.range W).map n.testBit

/-- The unsigned value of a word (R11). -/
def toNat : Word → Nat
  | [] => 0
  | b :: w => b.toNat + 2 * toNat w

/-- Bitwise exclusive-or of equal-width words (R11). -/
def xor (a b : Word) : Word := List.zipWith Bool.xor a b

/-- The W-bit word with every bit 0. -/
def zero (W : Nat) : Word := List.replicate W false

/-- The first W bits of `w`, missing ones read as 0. It is the identity on a W-bit word. -/
def fit (W : Nat) (w : Word) : Word := (List.range W).map (bit w)

/-- The value of an 8-bit word as an octet. -/
def toOctet (w : Word) : Octet := BitVec.ofNat 8 (toNat w)

/-- An array of `n` W-bit words, every bit 0. -/
def zeros (W n : Nat) : List Word := List.replicate n (zero W)

/-- The first `n` words of `ws`, each fitted to W bits. It is the identity on an array of `n` W-bit words. -/
def fitAll (W n : Nat) (ws : List Word) : List Word :=
  (List.range n).map fun i => fit W (ws.getD i [])

/-- `ws` is an array of `n` words of W bits each. -/
def Shape (W n : Nat) (ws : List Word) : Prop :=
  ws.length = n ∧ ∀ w ∈ ws, w.length = W

end Word
end Sys2Proof
end

