-- ==== Sys2Proof/Config.lean ====
section
/-! DEFINITION. The implementation parameters of 00_scope.md R8 as one plain record, the external collaborators they
select, and the model's free values. Nothing here is state: R40 calls these "configuration of the step relation, fixed
for the life of an instance". -/

namespace Sys2Proof

/-- One order of an endianness policy (R51). -/
inductive Order where
  | little
  | big
  deriving DecidableEq, Repr

/-- An endianness policy: an octet order and a bit order (R51). -/
structure Policy where
  octet : Order
  bit   : Order
  deriving DecidableEq, Repr

/-- Policy code 0 (R51). -/
def Policy.LOLB : Policy := ⟨.little, .little⟩
/-- Policy code 1 (R51). -/
def Policy.LOBB : Policy := ⟨.little, .big⟩
/-- Policy code 2 (R51). -/
def Policy.BOLB : Policy := ⟨.big, .little⟩
/-- Policy code 3 (R51). -/
def Policy.BOBB : Policy := ⟨.big, .big⟩

/-- The construction kind, fixed per instance (R8, R157). -/
inductive Kind where
  | sponge
  | md
  deriving DecidableEq, Repr

/-- The PERMUTE unit of an instance (R195): the toy of 95_test_vectors.md, or an external unit named by a number. -/
inductive PermuteUnit where
  | toyT1
  | external (id : Nat)
  deriving DecidableEq, Repr

/-- The PAD unit of an instance (R200): the reference pad10*1 (R206), a unit that answers the same blocks for every
input (the PAD_BAD of program P12 is one), or an external unit named by a number. -/
inductive PadUnit where
  | pad101
  | fixed (blocks : List (List Word))
  | external (id : Nat)
  deriving DecidableEq, Repr

/-- The PACK unit of an instance: the default of R186 or a replacement (R187). -/
inductive PackUnit where
  | default
  | external (id : Nat)
  deriving DecidableEq, Repr

/-- The parameters of R8, and BUS_ATTACHMENT of R64. `mdCompress` and `mdFinal` name external units. `padMinBits` is
informational (R204: "The core reads no threshold") and `busAttachment` lies outside the block (R64): no rule of the
block reads either. -/
structure Config where
  W             : Nat
  B             : Nat
  kind          : Kind
  S             : Nat
  iv            : List Word
  permute       : PermuteUnit
  pad           : PadUnit
  padMinBits    : Nat
  pack          : PackUnit
  digestBits    : Nat
  inEndian      : Policy
  bufEndian     : Policy
  digestEndian  : Policy
  tsW           : Nat
  mdIv          : Nat
  mdCompress    : Nat
  mdFinal       : Nat
  busAttachment : Nat
  deriving DecidableEq, Repr

namespace Config

/-- C, the capacity of the buffer in bits (R8, R10). -/
def C (cfg : Config) : Nat := cfg.B * cfg.W

/-- The constraints of R8 on the parameters. -/
structure Valid (cfg : Config) : Prop where
  W_octets      : 8 ∣ cfg.W
  W_min         : 8 ≤ cfg.W
  W_max         : cfg.W ≤ 2040
  B_min         : 1 ≤ cfg.B
  B_max         : cfg.B ≤ 255
  C_max         : cfg.C ≤ 65535
  S_min         : cfg.kind = .sponge → cfg.B ≤ cfg.S
  iv_shape      : cfg.kind = .sponge → Word.Shape cfg.W cfg.S cfg.iv
  digest_octets : 8 ∣ cfg.digestBits
  digest_min    : 8 ≤ cfg.digestBits
  digest_max    : cfg.digestBits ≤ 65535
  tsW_chunks    : 64 ∣ cfg.tsW
  tsW_min       : 64 ≤ cfg.tsW
  tsW_max       : cfg.tsW ≤ 512

/-! The external units (R4: "supplied as black boxes with known input/output contracts"): total functions with no body,
so that nothing about one can be proved (log 3). What the contracts promise is added where a unit is called, in
Machine/Collaborators.lean. -/

/-- PERMUTE of unit `id` on the sponge state (R195). -/
opaque externalPermute (id : Nat) (sw : List Word) : List Word

/-- PAD of unit `id` on the valid bits of the buffer, in stream order; their number is bits_filled (R200, R203). -/
opaque externalPad (id : Nat) (valid : List Bool) : List (List Word)

/-- PACK of unit `id` on the squeezed words (R187). -/
opaque externalPack (id : Nat) (words : List Word) : List Octet

/-- MD_COMPRESS of unit `id` on a chaining value and a block (R195). -/
opaque externalMdCompress (id : Nat) (mds : Nat) (blk : List Word) : Nat

/-- MD_FINAL of unit `id` on a chaining value, the valid bits of the buffer and the total length (R192). -/
opaque externalMdFinal (id : Nat) (mds : Nat) (valid : List Bool) (total : Nat) : List Octet

/-! The free values (log 7, log 18). -/

/-- The `k`-th result of `draw()`: a free value with no law (R13, R105). -/
opaque freeBit (k : Nat) : Bool

/-- What CONFIG's 8-bit STATE_WORDS field reads when S does not fit it: R33 states no value there (log 18). -/
opaque freeStateWords (S : Nat) : BitVec 8

/-- The toy configuration T1 (95_test_vectors.md section 1). The Merkle–Damgård parameters, PAD_MIN_BITS (2 for
pad10*1, R204) and BUS_ATTACHMENT are not read under it (log 24). -/
def t1 : Config where
  W := 8
  B := 2
  kind := .sponge
  S := 4
  iv := Word.zeros 8 4
  permute := .toyT1
  pad := .pad101
  padMinBits := 2
  pack := .default
  digestBits := 24
  inEndian := .LOBB
  bufEndian := .LOBB
  digestEndian := .LOBB
  tsW := 64
  mdIv := 0
  mdCompress := 0
  mdFinal := 0
  busAttachment := 0

/-- The toy configuration T2 (95_test_vectors.md section 1): T1 with W = 16, IN_ENDIAN = BOBB and DIGEST_BITS = 32. -/
def t2 : Config :=
  { t1 with W := 16, iv := Word.zeros 16 4, inEndian := .BOBB, digestBits := 32 }

end Config
end Sys2Proof
end

