-- ==== Sys2Proof/Syntax.lean ====
section
/-! DEFINITION. The seven commands of spec/opcode_table.json with their operands, the registers READ_REG names, and a
command as it stands on the command channel (R70). -/

namespace Sys2Proof

/-- A register of the host-visible map (R31). `totalSeen k` is TOTAL_SEEN_k. -/
inductive Reg where
  | status
  | errCause
  | bitsUsed
  | capacity
  | config
  | totalSeen (k : Nat)
  deriving DecidableEq, Repr

/-- A command of the block with its operands: one constructor per row of the opcode table (R80). The payload of a
PROCESS command is an operand of it (R77, R86). -/
inductive Instr where
  | processWord (v : Word) (bits : BitVec 16)
  | processBlock (blk : List Word) (bits : BitVec 16)
  | result
  | reset
  | readReg (r : Reg)
  | getBlock
  | clearErr
  deriving DecidableEq, Repr

/-- One transaction of the command channel: `cmd_word[31:0]` and `cmd_payload`, B words of W bits (R70). -/
structure Command where
  word    : BitVec 32
  payload : List Word
  deriving DecidableEq, Repr

end Sys2Proof
end

