-- ==== Sys2Proof/WellFormed.lean ====
section
/-! DEFINITION. Which terms of `Instr` are commands of an instance: operands of the shape the opcode fixes (R77) and a
register that exists (R31). -/

namespace Sys2Proof

/-- `ws` is an array of `n` words of W bits, as a check. -/
def Word.shaped (W n : Nat) (ws : List Word) : Bool :=
  ws.length == n && ws.all fun w => w.length == W

/-- The register is in the map of R31: TOTAL_SEEN_k exists for k < TS_W/64. -/
def Reg.present (cfg : Config) : Reg → Bool
  | .status => true
  | .errCause => true
  | .bitsUsed => true
  | .capacity => true
  | .config => true
  | .totalSeen k => decide (k < cfg.tsW / 64)

/-- The command's operands have the shape its opcode fixes (R77), and its register exists (R31). The BITS operand may
be any 16-bit number: one over the width decodes (R84). -/
def Instr.wf (cfg : Config) : Instr → Bool
  | .processWord v _ => v.length == cfg.W
  | .processBlock blk _ => Word.shaped cfg.W cfg.B blk
  | .result => true
  | .reset => true
  | .readReg r => r.present cfg
  | .getBlock => true
  | .clearErr => true

end Sys2Proof
end

