-- ==== Sys2Proof/Decode.lean ====
section
/-! DEFINITION. The command words: the decoder of R81, total on every 32-bit word and rejecting by name, the encoder
written from the same tables (R73, R74, R80), and the opcode map itself (R80). -/

namespace Sys2Proof

/-- Why a command word is illegal (R81 to R83). Each one is the error ILLEGAL_COMMAND. -/
inductive Illegal where
  /-- OPC is 0x0 or 0x8 to 0xF (R82). -/
  | reservedOpcode
  /-- RSV is not zero (R83). -/
  | nonzeroReserved
  /-- REG is not zero in a command that does not use it (R74). -/
  | unusedReg
  /-- BITS is not zero in a command that does not use it (R74). -/
  | unusedBits
  /-- READ_REG of a number that is no register (R31). -/
  | notARegister
  deriving DecidableEq, Repr

/-! ### Fields (R73) -/

/-- OPC, CMD[3:0]. -/
def fieldOpc (w : BitVec 32) : BitVec 4 := w.extractLsb' 0 4
/-- REG, CMD[11:4]. -/
def fieldReg (w : BitVec 32) : BitVec 8 := w.extractLsb' 4 8
/-- RSV, CMD[15:12]. -/
def fieldRsv (w : BitVec 32) : BitVec 4 := w.extractLsb' 12 4
/-- BITS, CMD[31:16]. -/
def fieldBits (w : BitVec 32) : BitVec 16 := w.extractLsb' 16 16

/-- The command word with these fields (R73). -/
def packFields (bits : BitVec 16) (rsv : BitVec 4) (reg : BitVec 8) (opc : BitVec 4) : BitVec 32 :=
  bits ++ rsv ++ reg ++ opc

/-! ### Register numbers (R31, R76) -/

/-- The register of a number of the map (R31). -/
def Reg.ofNumber (cfg : Config) (n : BitVec 8) : Option Reg :=
  match n.toNat with
  | 0 => some .status
  | 1 => some .errCause
  | 2 => some .bitsUsed
  | 3 => some .capacity
  | 4 => some .config
  | m => if 8 ≤ m ∧ m < 8 + cfg.tsW / 64 then some (.totalSeen (m - 8)) else none

/-- The number of a register (R31). -/
def Reg.number : Reg → BitVec 8
  | .status => 0x00#8
  | .errCause => 0x01#8
  | .bitsUsed => 0x02#8
  | .capacity => 0x03#8
  | .config => 0x04#8
  | .totalSeen k => BitVec.ofNat 8 (8 + k)

/-! ### The decoder -/

/-- The decoder of R81. The payload's shape follows from OPC alone (R77, R85): PROCESS_WORD takes `cmd_payload[0]`,
PROCESS_BLOCK the B words; an illegal word's payload is not read (R246). -/
def decode (cfg : Config) (w : BitVec 32) (payload : List Word) : Except Illegal Instr :=
  if fieldOpc w = 0 ∨ 8 ≤ (fieldOpc w).toNat then .error .reservedOpcode
  else if fieldRsv w ≠ 0 then .error .nonzeroReserved
  else if fieldOpc w ≠ 5 ∧ fieldReg w ≠ 0 then .error .unusedReg
  else if fieldOpc w ≠ 1 ∧ fieldOpc w ≠ 2 ∧ fieldBits w ≠ 0 then .error .unusedBits
  else
    match (fieldOpc w).toNat with
    | 1 => .ok (.processWord (payload.getD 0 []) (fieldBits w))
    | 2 => .ok (.processBlock (payload.take cfg.B) (fieldBits w))
    | 3 => .ok .result
    | 4 => .ok .reset
    | 5 =>
      match Reg.ofNumber cfg (fieldReg w) with
      | some r => .ok (.readReg r)
      | none => .error .notARegister
    | 6 => .ok .getBlock
    | 7 => .ok .clearErr
    | _ => .error .reservedOpcode

/-! ### The encoder -/

/-- The opcode of a command (R80). -/
def Instr.opcode : Instr → BitVec 4
  | .processWord _ _ => 0x1#4
  | .processBlock _ _ => 0x2#4
  | .result => 0x3#4
  | .reset => 0x4#4
  | .readReg _ => 0x5#4
  | .getBlock => 0x6#4
  | .clearErr => 0x7#4

/-- The REG field a command is encoded with (R74). -/
def Instr.regField : Instr → BitVec 8
  | .readReg r => r.number
  | .processWord _ _ | .processBlock _ _ | .result | .reset | .getBlock | .clearErr => 0#8

/-- The BITS field a command is encoded with (R74). -/
def Instr.bitsField : Instr → BitVec 16
  | .processWord _ bits => bits
  | .processBlock _ bits => bits
  | .result | .reset | .readReg _ | .getBlock | .clearErr => 0#16

/-- The payload a command is sent with: the words its opcode reads (R77), the wires it ignores at 0 (log 22). -/
def Instr.payload (cfg : Config) : Instr → List Word
  | .processWord v _ => v :: Word.zeros cfg.W (cfg.B - 1)
  | .processBlock blk _ => blk
  | .result | .reset | .readReg _ | .getBlock | .clearErr => Word.zeros cfg.W cfg.B

/-- The encoder: the transaction of a command (R73, R74, R77, R80). -/
def encode (cfg : Config) (i : Instr) : Command where
  word := packFields i.bitsField 0#4 i.regField i.opcode
  payload := i.payload cfg

/-! ### The opcode map (R80) -/

/-- A row of the opcode map: a word matches when `(CMD & mask) == pattern`. -/
structure OpcodeRow where
  mnemonic : String
  pattern  : BitVec 32
  mask     : BitVec 32
  deriving DecidableEq, Repr

/-- The seven rows of R80. -/
def opcodeRows : List OpcodeRow :=
  [ ⟨"PROCESS_WORD",  0x00000001#32, 0x0000FFFF#32⟩,
    ⟨"PROCESS_BLOCK", 0x00000002#32, 0x0000FFFF#32⟩,
    ⟨"RESULT",        0x00000003#32, 0xFFFFFFFF#32⟩,
    ⟨"RESET",         0x00000004#32, 0xFFFFFFFF#32⟩,
    ⟨"READ_REG",      0x00000005#32, 0xFFFF000F#32⟩,
    ⟨"GET_BLOCK",     0x00000006#32, 0xFFFFFFFF#32⟩,
    ⟨"CLEAR_ERR",     0x00000007#32, 0xFFFFFFFF#32⟩ ]

/-- A command word matches a row (R80). -/
def OpcodeRow.matches (row : OpcodeRow) (w : BitVec 32) : Bool := w &&& row.mask == row.pattern

/-- The name of a command's row (R80). -/
def Instr.mnemonic : Instr → String
  | .processWord _ _ => "PROCESS_WORD"
  | .processBlock _ _ => "PROCESS_BLOCK"
  | .result => "RESULT"
  | .reset => "RESET"
  | .readReg _ => "READ_REG"
  | .getBlock => "GET_BLOCK"
  | .clearErr => "CLEAR_ERR"

/-! ### The host's probe -/

/-- The transaction the host's probe stands for: the low `nbits` bits of `w` as the command word, every payload word
zero (log 13). -/
def tableCommand (cfg : Config) (nbits w : Nat) : Command where
  word := BitVec.ofNat 32 (w % 2 ^ nbits)
  payload := Word.zeros cfg.W cfg.B

/-- What the decoder reads from the command word `w` under T1, the configuration of the model's reset state. -/
def decodeTableWord (nbits w : Nat) : Option Instr :=
  (decode .t1 (tableCommand .t1 nbits w).word (tableCommand .t1 nbits w).payload).toOption

end Sys2Proof
end

