-- ==== Sys2Proof/Machine/State.lean ====
section
/-! DEFINITION. The state of the block as plain data (10_state.md), its channels (R70, R71), the reasons a step can stop,
and the state after reset (R41). -/

namespace Sys2Proof.Machine

/-- The error causes of R240 that an error can have. Codes 6 to 15 are never produced (I21). -/
inductive Cause where
  | illegalCommand
  | invalidLength
  | capacityViolation
  | lengthOverflow
  | padContract
  deriving DecidableEq, Repr

/-- The machine stops with a fault. -/
inductive Fault where
  /-- The PROCESS loop (R146) makes no progress and never ends. Raised by PROCESS_WORD and PROCESS_BLOCK, only when
  C = 0, which R8 excludes. Safe (log 15). -/
  | processLoopStuck
  deriving DecidableEq, Repr

/-- The model gives the step no meaning. -/
inductive Refusal where
  /-- The instruction named has no meaning in this model. No arm of `exec` answers it. Safe. -/
  | notModelled (mnemonic : String)
  /-- An INJECT outside its precondition (R123, D26, I26: "refuse"). Raised by APPEND and the default PACK, only in a
  state or on a payload that has not the shape of the hardware's. Safe (log 17). -/
  | injectOutOfRange
  deriving DecidableEq, Repr

/-- How a micro-operation ends a command early: by `raise Error(cause)` (R241) or by a stop of the model. -/
inductive Stop where
  | raise (c : Cause)
  | fault (f : Fault)
  | refuse (r : Refusal)
  deriving DecidableEq, Repr

/-- `rsp_data` in the shapes of R78. A word of `block` is a list of bits, so that a stale bit can be any value while
the valid bits beside it are known (R226). -/
inductive RspData where
  | empty
  | digest (octets : List Octet)
  | value (v : BitVec 64)
  | block (words : List Word)
  deriving DecidableEq, Repr

/-- One response: `rsp_status[3:0]` and `rsp_data` (R71). -/
structure Response where
  status : BitVec 4
  data   : RspData
  deriving DecidableEq, Repr

/-- A construction value (43_construction.md): `sw` and `phase` for SPONGE (R25), `mds` and `phase` for MD (R26). The
field of the other kind is not read (log 19). -/
structure Construction where
  sw    : List Word
  mds   : Nat
  phase : BitVec 2
  deriving DecidableEq, Repr

/-- What the host does next on the channels (log 10). -/
inductive HostInput where
  /-- It drives `cmd_valid` with this command until the block accepts it (R70). -/
  | command (c : Command)
  /-- It drives `rsp_ready` and takes the response, if one is offered (R71). -/
  | takeResponse
  /-- It asserts `rst` (R89, R270). -/
  | rst
  deriving DecidableEq, Repr

/-- The whole state. `cfg` is the instance's configuration (log 1), `delivered` the observation of R282 (log 20) and
`draws` the number of the next free value (log 7); the other fields are the spec's. -/
structure State where
  cfg       : Config
  buf       : List Word
  filled    : Nat
  totalSeen : Nat
  con       : Construction
  err       : Bool
  errCause  : BitVec 4
  rsp       : Option Response
  inputs    : List HostInput
  delivered : List Response
  draws     : Nat
  deriving DecidableEq, Repr

/-- The state of an instance with configuration `cfg` after reset (R41). BUF, which R41 leaves at any value, is all
zero here (DESIGN CHOICE, log 8); the field of the construction kind that `cfg` has not is empty (DESIGN CHOICE,
log 19). -/
def State.resetOf (cfg : Config) : State where
  cfg := cfg
  buf := Word.zeros cfg.W cfg.B
  filled := 0
  totalSeen := 0
  con :=
    match cfg.kind with
    | .sponge => ⟨cfg.iv, 0, 0#2⟩
    | .md => ⟨[], cfg.mdIv, 0#2⟩
  err := false
  errCause := 0#4
  rsp := none
  inputs := []
  delivered := []
  draws := 0

/-- The machine right after reset, as an instance of the spec's configuration T1 (DESIGN CHOICE, log 1). -/
def State.reset : State := State.resetOf .t1

end Sys2Proof.Machine
end

