-- ==== Sys2Proof/Machine/Injector.lean ====
section
/-! DEFINITION. The mapping of stream positions to word bits (R52, R53) and the Injector (R120). -/

namespace Sys2Proof.Machine

/-- `pos(pol, W, j)`: the word bit that holds stream bit `j` of a W-bit word under `pol` (R52). -/
def pos (pol : Policy) (W j : Nat) : Nat :=
  let o := j / 8
  let b := j % 8
  let lo := match pol.octet with
    | .little => 8 * o
    | .big => W - 8 - 8 * o
  let within := match pol.bit with
    | .big => 7 - b
    | .little => b
  lo + within

/-- `StreamBit(arr, pol, p)` of an array of W-bit words (R53). -/
def streamBit (pol : Policy) (W : Nat) (arr : List Word) (p : Nat) : Bool :=
  Word.bit (arr.getD (p / W) []) (pos pol W (p % W))

/-- `StreamBit(arr, pol, p) <- b` (R53). -/
def setStreamBit (pol : Policy) (W : Nat) (arr : List Word) (p : Nat) (b : Bool) : List Word :=
  arr.modify (p / W) fun w => w.set (pos pol W (p % W)) b

/-- Write `f 0`, `f 1`, …, `f (n-1)` to the stream positions `doff`, `doff + 1`, …, in this order. -/
def writeStream (pol : Policy) (W : Nat) (arr : List Word) (doff : Nat) (f : Nat → Bool) : Nat → List Word
  | 0 => arr
  | n + 1 => setStreamBit pol W (writeStream pol W arr doff f n) (doff + n) (f n)

/-- The first `n` stream bits of an array. -/
def streamBits (pol : Policy) (W : Nat) (arr : List Word) (n : Nat) : List Bool :=
  (List.range n).map (streamBit pol W arr)

/-- INJECT (R120). A call outside the precondition has no meaning and is refused (R123). `src` is a value of its own,
so every source bit is read before a destination bit is written (R125).
DESIGN CHOICE (log 28): the precondition counts the words of an array as Ws (or Wd) bits each, whatever their lists hold;
a bit that a word shorter than that lacks reads 0, and a write to one is dropped. The wires of R70 carry no such word. -/
def inject (src : List Word) (spol : Policy) (Ws n : Nat) (dst : List Word) (dpol : Policy) (Wd doff soff : Nat) :
    Except Refusal (List Word) :=
  if soff + n ≤ src.length * Ws ∧ doff + n ≤ dst.length * Wd then
    .ok (writeStream dpol Wd dst doff (fun k => streamBit spol Ws src (soff + k)) n)
  else .error .injectOutOfRange

end Sys2Proof.Machine
end

