-- ==== Sys2Proof/Machine/Collaborators.lean ====
section
/-! DEFINITION. The collaborators as the sequencer calls them (R72): each one a pure total function of its request
(D30), with the contract the spec gives it put in by construction: results of the right shape (R195, R200, R192, R187),
no dependence on stale bits (R203, R192). -/

namespace Sys2Proof.Machine

/-- The derived quantity DIGEST_OCTETS (R10). -/
def digestOctets (cfg : Config) : Nat := cfg.digestBits / 8

/-- The derived quantity N_SQUEEZE = ceil(DIGEST_BITS / C) (R10, R176). -/
def nSqueeze (cfg : Config) : Nat := (cfg.digestBits + cfg.C - 1) / cfg.C

/-- MAX_PAD_BLOCKS (R8: fixed at 2). -/
def maxPadBlocks : Nat := 2

/-- PERMUTE_T1(s0, s1, s2, s3) = (s1 ⊕ s2, s2 ⊕ s3, s3 ⊕ 0x01, s0 ⊕ s1) (95_test_vectors.md section 1). -/
def permuteT1 (W : Nat) (sw : List Word) : List Word :=
  let s := fun i => sw.getD i []
  [Word.xor (s 1) (s 2), Word.xor (s 2) (s 3), Word.xor (s 3) (Word.ofNat W 1), Word.xor (s 0) (s 1)]

/-- PERMUTE: a function from S W-bit words to S W-bit words (R195). -/
def permute (cfg : Config) (sw : List Word) : List Word :=
  Word.fitAll cfg.W cfg.S
    (match cfg.permute with
      | .toyT1 => permuteT1 cfg.W sw
      | .external id => Config.externalPermute id sw)

/-- PAD_101, the reference pad10*1 (R206). -/
def pad101 (cfg : Config) (blk : List Word) (bf : Nat) : List (List Word) :=
  let empty := Word.zeros cfg.W cfg.B
  let copied := writeStream cfg.bufEndian cfg.W empty 0 (streamBit cfg.bufEndian cfg.W blk) bf
  let b1 := setStreamBit cfg.bufEndian cfg.W copied bf true
  if 2 ≤ cfg.C - bf then [setStreamBit cfg.bufEndian cfg.W b1 (cfg.C - 1) true]
  else [b1, setStreamBit cfg.bufEndian cfg.W empty (cfg.C - 1) true]

/-- PAD(blk, bf): a list of blocks of B words of W bits that depends on the valid bits only (R200 to R203). -/
def pad (cfg : Config) (blk : List Word) (bf : Nat) : List (List Word) :=
  match cfg.pad with
  | .pad101 => pad101 cfg blk bf
  | .fixed blocks => blocks.map (Word.fitAll cfg.W cfg.B)
  | .external id =>
    (Config.externalPad id (streamBits cfg.bufEndian cfg.W blk bf)).map (Word.fitAll cfg.W cfg.B)

/-- The default PACK (R186): INJECT from the words under BUF_ENDIAN into octets under DIGEST_ENDIAN. -/
def packDefault (cfg : Config) (words : List Word) : Except Refusal (List Octet) :=
  let n := words.length * cfg.W
  match inject words cfg.bufEndian cfg.W n (Word.zeros 8 (n / 8)) cfg.digestEndian 8 0 0 with
  | .ok octs => .ok (octs.map Word.toOctet)
  | .error r => .error r

/-- PACK: the default (R186) or a replacement, which returns at least DIGEST_OCTETS octets (R187). -/
def packWords (cfg : Config) (words : List Word) : Except Refusal (List Octet) :=
  match cfg.pack with
  | .default => packDefault cfg words
  | .external id =>
    let octs := Config.externalPack id words
    .ok (octs ++ List.replicate (digestOctets cfg - octs.length) 0#8)

/-- MD_COMPRESS: a function from a chaining value and a block to a chaining value (R195). -/
def mdCompress (cfg : Config) (mds : Nat) (blk : List Word) : Nat :=
  Config.externalMdCompress cfg.mdCompress mds blk

/-- MD_FINAL: exactly DIGEST_OCTETS octets, from the chaining value, the block's stream bits [0, total mod C) and the
total length (R192). -/
def mdFinal (cfg : Config) (mds : Nat) (blk : List Word) (total : Nat) : List Octet :=
  let octs := Config.externalMdFinal cfg.mdFinal mds (streamBits cfg.bufEndian cfg.W blk (total % cfg.C)) total
  (List.range (digestOctets cfg)).map fun i => octs.getD i 0#8

end Sys2Proof.Machine
end

