-- ==== Sys2Proof/Machine/Flags.lean ====
section
/-! DEFINITION. The derived flags (R30, R101) and the registers READ_REG shows (R31 to R36). -/

namespace Sys2Proof.Machine

/-- IS_EMPTY (R30). -/
def isEmpty (s : State) : Bool := decide (s.filled = 0)

/-- IS_FULL (R30). -/
def isFull (s : State) : Bool := decide (s.filled = s.cfg.C)

/-- IS_WORD_ALIGNED (R30). -/
def isWordAligned (s : State) : Bool := decide (s.filled % s.cfg.W = 0)

/-- BITS_USED (R101). -/
def bitsUsed (s : State) : Nat := s.filled

/-- CAPACITY (R101). -/
def capacity (s : State) : Nat := s.cfg.C

/-- The KIND bit of STATUS and CONFIG: 0 = SPONGE, 1 = MD (R32). -/
def kindBit : Kind → BitVec 1
  | .sponge => 0#1
  | .md => 1#1

/-- One bit of an order: 0 = LITTLE, 1 = BIG (R51). -/
def orderBit : Order → BitVec 1
  | .little => 0#1
  | .big => 1#1

/-- The 2-bit policy code: bit 1 the octet order, bit 0 the bit order (R51). -/
def policyCode (pol : Policy) : BitVec 2 := orderBit pol.octet ++ orderBit pol.bit

/-- The STATUS register (R32). -/
def statusReg (s : State) : BitVec 64 :=
  0#57 ++ kindBit s.cfg.kind ++ s.con.phase ++ BitVec.ofBool s.err ++ BitVec.ofBool (isWordAligned s)
    ++ BitVec.ofBool (isFull s) ++ BitVec.ofBool (isEmpty s)

/-- The STATE_WORDS field of CONFIG: S for SPONGE, 0 for MD (R33). An S that does not fit the 8 bits reads as a free
value (log 18). -/
def stateWordsField (cfg : Config) : BitVec 8 :=
  match cfg.kind with
  | .md => 0#8
  | .sponge => if cfg.S < 256 then BitVec.ofNat 8 cfg.S else Config.freeStateWords cfg.S

/-- The CONFIG register (R33). -/
def configReg (cfg : Config) : BitVec 64 :=
  0#8 ++ BitVec.ofNat 8 (cfg.tsW / 8) ++ stateWordsField cfg ++ BitVec.ofNat 16 cfg.digestBits ++ 0#1
    ++ policyCode cfg.digestEndian ++ policyCode cfg.bufEndian ++ policyCode cfg.inEndian ++ kindBit cfg.kind
    ++ BitVec.ofNat 8 cfg.B ++ BitVec.ofNat 8 (cfg.W / 8)

/-- TOTAL_SEEN[64k+63 : 64k] (R35). -/
def totalSeenChunk (s : State) (k : Nat) : BitVec 64 := BitVec.ofNat 64 (s.totalSeen / 2 ^ (64 * k))

/-- The value of a register of the map (R31, R220). -/
def regValue (s : State) : Reg → BitVec 64
  | .status => statusReg s
  | .errCause => s.errCause.setWidth 64
  | .bitsUsed => BitVec.ofNat 64 (bitsUsed s)
  | .capacity => BitVec.ofNat 64 (capacity s)
  | .config => configReg s.cfg
  | .totalSeen k => totalSeenChunk s k

end Sys2Proof.Machine
end

