-- ==== Sys2Proof/Machine/Operands.lean ====
section
/-! DEFINITION. Operand assembly: the BITS operand of the PROCESS commands (R75). The REG operand (R76) is resolved by
the decoder (`Reg.ofNumber`), the payload by the decoder too (R77). -/

namespace Sys2Proof.Machine

/-- The effective bit count: a BITS field of 0 means the full width (R75). -/
def effectiveBits (width : Nat) (bits : BitVec 16) : Nat :=
  if bits.toNat = 0 then width else bits.toNat

/-- BITS exceeds the payload's width: the condition of INVALID_LENGTH (R140). -/
def lengthInvalid (width : Nat) (bits : BitVec 16) : Bool := decide (width < bits.toNat)

/-- The sum of TOTAL_SEEN and `n`, at full precision, does not fit TS_W bits: the condition of LENGTH_OVERFLOW (R141). -/
def lengthOverflows (cfg : Config) (totalSeen n : Nat) : Bool := decide (2 ^ cfg.tsW - 1 < totalSeen + n)

end Sys2Proof.Machine
end

