-- ==== Sys2Proof/Machine/Ops.lean ====
section
/-! DEFINITION. The operations every command shares: responding (R71), raising an error and acknowledging it (R241,
R242, R254), the reset of the accumulator (R160), the response channel (R70) and the bits of BUF with its free stale
bits (R105). -/

namespace Sys2Proof.Machine

/-! ### Phases and statuses -/

/-- PHASE = READY (R27). -/
def phaseReady : BitVec 2 := 0#2
/-- PHASE = ABSORBING (R27). -/
def phaseAbsorbing : BitVec 2 := 1#2
/-- PHASE = SQUEEZING (R27), reached only on RESULT's copy (R172). -/
def phaseSqueezing : BitVec 2 := 2#2

/-- The 4-bit code of a cause (R240). -/
def causeCode : Cause → BitVec 4
  | .illegalCommand => 1#4
  | .invalidLength => 2#4
  | .capacityViolation => 3#4
  | .lengthOverflow => 4#4
  | .padContract => 5#4

/-- The status of a successful response, and the ERR_CAUSE value NONE (R79, R240). -/
def statusOk : BitVec 4 := 0#4

/-! ### Ending a command -/

/-- `respond(status, data)`: the one response of the command is offered (R71). -/
def respond (status : BitVec 4) (data : RspData) (s : State) : State :=
  { s with rsp := some ⟨status, data⟩ }

/-- `respond(OK, data)`. -/
def respondOk (data : RspData) (s : State) : State := respond statusOk data s

/-- `raise Error(code)`: taking an error (R242). `s` is the state before the command, so that nothing else of it
changes (R243). -/
def raiseError (c : Cause) (s : State) : State :=
  respond (causeCode c) .empty { s with err := true, errCause := causeCode c }

/-- The acknowledgement of an error, the nearest thing the block has to a return (R228, R254). -/
def acknowledgeError (s : State) : State :=
  { s with err := false, errCause := statusOk }

/-- A command that stopped early in the state `s`: an error is taken from `s` as it was before the command (R243). -/
def stopped (s : State) : Stop → Host.Outcome State Fault Refusal
  | .raise c => .next (raiseError c s)
  | .fault f => .fault f
  | .refuse r => .refused r

/-! ### Reset -/

/-- The construction state after a reset: IV or MD_IV, and READY (R160). -/
def resetConstruction (cfg : Config) (c : Construction) : Construction :=
  match cfg.kind with
  | .sponge => { c with sw := cfg.iv, phase := phaseReady }
  | .md => { c with mds := cfg.mdIv, phase := phaseReady }

/-- What RESET and `rst` write (R160, R270). BUF is not among it. -/
def resetAccumulator (s : State) : State :=
  { s with
    filled := 0
    totalSeen := 0
    con := resetConstruction s.cfg s.con
    err := false
    errCause := statusOk }

/-! ### BUF and its stale bits -/

/-- A buffer array with a fresh free value at every stream position from `start` on (R102, R105). The free value of
position p is number `draws + p`. -/
def redrawFrom (cfg : Config) (buf : List Word) (start draws : Nat) : List Word :=
  writeStream cfg.bufEndian cfg.W buf start (fun k => Config.freeBit (draws + (start + k))) (cfg.C - start)

/-- The valid bits of BUF, stream positions 0 to FILLED-1 (R22). -/
def validBits (s : State) : List Bool := streamBits s.cfg.bufEndian s.cfg.W s.buf s.filled

/-- BLOCK() as the host reads it: the whole storage, each stale bit a free value of this read (R107, R226). -/
def readBlock (s : State) : List Word := redrawFrom s.cfg s.buf s.filled s.draws

/-- The free values of one pass over the buffer are used up. -/
def spendDraws (s : State) : State := { s with draws := s.draws + s.cfg.C }

/-! ### Channels -/

/-- `cmd_ready`: high exactly when no response is pending (R70, R276). -/
def cmdReady (s : State) : Bool := s.rsp.isNone

/-- The host takes the response that is offered; without one nothing is transferred (R71). -/
def deliver (s : State) : State :=
  match s.rsp with
  | some r => { s with rsp := none, delivered := s.delivered ++ [r] }
  | none => s

/-- The hardware reset `rst` (R270): the reset of the accumulator, BUF at any value, no response offered and
`cmd_ready` high. -/
def hardwareReset (s : State) : State :=
  let t := resetAccumulator s
  { spendDraws t with buf := redrawFrom s.cfg s.buf 0 s.draws, rsp := none }

end Sys2Proof.Machine
end

