-- ==== Sys2Proof/Machine/Construction.lean ====
section
/-! DEFINITION. The Construction's micro-operations (43_construction.md), on a construction value. -/

namespace Sys2Proof.Machine

/-- XOR a block into the first words of the state, the others untouched (R170). -/
def xorInto : List Word → List Word → List Word
  | s :: sw, b :: blk => Word.xor s b :: xorInto sw blk
  | sw, [] => sw
  | [], _ => []

/-- ABSORB (R170). -/
def absorb (cfg : Config) (c : Construction) (blk : List Word) : Construction :=
  { c with sw := permute cfg (xorInto c.sw (blk.take cfg.B)), phase := phaseAbsorbing }

/-- MD_ABSORB (R190). -/
def mdAbsorb (cfg : Config) (c : Construction) (blk : List Word) : Construction :=
  { c with mds := mdCompress cfg c.mds blk, phase := phaseAbsorbing }

/-- The absorb entry point of the instance's kind (R150, R194). -/
def absorbLive (cfg : Config) (c : Construction) (blk : List Word) : Construction :=
  match cfg.kind with
  | .sponge => absorb cfg c blk
  | .md => mdAbsorb cfg c blk

/-- ABSORB_WITH_PADDING (R173), with the pad-count check of R174. -/
def absorbWithPadding (cfg : Config) (c : Construction) (blk : List Word) (bf : Nat) : Except Stop Construction :=
  let blocks := pad cfg blk bf
  if maxPadBlocks < blocks.length then .error (.raise .padContract)
  else .ok (blocks.foldl (absorb cfg) c)

/-- SQUEEZE (R175): the first B words, taken before the permutation, and the permuted state. -/
def squeeze (cfg : Config) (c : Construction) : List Word × Construction :=
  (c.sw.take cfg.B, { c with sw := permute cfg c.sw, phase := phaseSqueezing })

/-- `n` SQUEEZEs, their words concatenated (R177). -/
def squeezeN (cfg : Config) : Nat → Construction → List Word
  | 0, _ => []
  | n + 1, c => (squeeze cfg c).1 ++ squeezeN cfg n (squeeze cfg c).2

/-- The part of DIGEST after the tail is absorbed: squeeze, pack, truncate (R177, R178). -/
def squeezeDigest (cfg : Config) (c : Construction) : Except Stop (List Octet) :=
  match packWords cfg (squeezeN cfg (nSqueeze cfg) c) with
  | .ok octs => .ok (octs.take (digestOctets cfg))
  | .error r => .error (.refuse r)

/-- DIGEST (R177). The branch for a full block is kept as R179 asks. -/
def digest (cfg : Config) (c : Construction) (blk : List Word) (bf : Nat) : Except Stop (List Octet) :=
  if bf = cfg.C then squeezeDigest cfg (absorb cfg c blk)
  else
    match absorbWithPadding cfg c blk bf with
    | .ok c' => squeezeDigest cfg c'
    | .error e => .error e

/-- MD_DIGEST (R191). -/
def mdDigest (cfg : Config) (c : Construction) (blk : List Word) (total : Nat) : List Octet :=
  mdFinal cfg c.mds blk total

end Sys2Proof.Machine
end

