-- ==== Sys2Proof/Machine/BitBuffer.lean ====
section
/-! DEFINITION. The Bit Buffer's micro-operations (40_bit_buffer.md), FLUSH and the PROCESS loop (42_accumulator.md). -/

namespace Sys2Proof.Machine

/-- APPEND(src, n, soff) (R102), with the capacity check of R104. The check is n > C - FILLED on whole numbers
(log 16). -/
def append (src : List Word) (n soff : Nat) (s : State) : Except Stop State :=
  if s.cfg.C < s.filled + n then .error (.raise .capacityViolation)
  else
    match inject src s.cfg.inEndian s.cfg.W n s.buf s.cfg.bufEndian s.cfg.W s.filled soff with
    | .error r => .error (.refuse r)
    | .ok copied =>
      .ok { spendDraws s with
        buf := redrawFrom s.cfg copied (s.filled + n) s.draws
        filled := s.filled + n }

/-- CLEAN (R106). -/
def clean (s : State) : State := { s with filled := 0 }

/-- FLUSH (R150): the absorb completes, then CLEAN. -/
def flush (s : State) : State := clean { s with con := absorbLive s.cfg s.con s.buf }

/-- The flush test of the loop (R146 step 1e, R148). -/
def flushIfFull (s : State) : State := if isFull s then flush s else s

/-- The loop of PROCESS (R146) on at most `fuel` iterations. `n + 1` of them are enough whenever C > 0, since every one
but a first on a full buffer moves at least one bit (R147, log 15). -/
def processLoop (src : List Word) (n : Nat) : Nat → Nat → State → Except Stop State
  | 0, processed, s => if processed < n then .error (.fault .processLoopStuck) else .ok s
  | fuel + 1, processed, s =>
    if processed < n then
      let room := s.cfg.C - s.filled
      let take := min room (n - processed)
      match append src take processed s with
      | .error e => .error e
      | .ok t => processLoop src n fuel (processed + take) (flushIfFull t)
    else .ok s

/-- TOTAL_SEEN grows by n once, after the loop (R149). -/
def countBits (n : Nat) (s : State) : State := { s with totalSeen := s.totalSeen + n }

/-- PROCESS(src, n) (R146). -/
def process (src : List Word) (n : Nat) (s : State) : Except Stop State :=
  match processLoop src n (n + 1) 0 s with
  | .ok t => .ok (countBits n t)
  | .error e => .error e

end Sys2Proof.Machine
end

