-- ==== Sys2Proof/Machine/Accumulator.lean ====
section
/-! DEFINITION. The meanings of PROCESS_WORD, PROCESS_BLOCK, RESULT and RESET (42_accumulator.md). -/

namespace Sys2Proof.Machine

/-- What both PROCESS commands do with a payload of `width` bits: the checks in the order of R144, then PROCESS. -/
def submit (src : List Word) (width : Nat) (bits : BitVec 16) (s : State) : Host.Outcome State Fault Refusal :=
  let n := effectiveBits width bits
  if lengthInvalid width bits then .next (raiseError .invalidLength s)
  else if lengthOverflows s.cfg s.totalSeen n then .next (raiseError .lengthOverflow s)
  else
    match process src n s with
    | .ok t => .next (respondOk .empty t)
    | .error e => stopped s e

/-- PROCESS_WORD (R142). -/
def execProcessWord (v : Word) (bits : BitVec 16) (s : State) : Host.Outcome State Fault Refusal :=
  submit [v] s.cfg.W bits s

/-- PROCESS_BLOCK (R143). -/
def execProcessBlock (blk : List Word) (bits : BitVec 16) (s : State) : Host.Outcome State Fault Refusal :=
  submit blk s.cfg.C bits s

/-- The digest RESULT computes on a copy of the construction state: the sponge path or the MD path (R155, R157). -/
def resultDigest (s : State) : Except Stop (List Octet) :=
  match s.cfg.kind with
  | .sponge => digest s.cfg s.con s.buf s.filled
  | .md => .ok (mdDigest s.cfg s.con s.buf s.totalSeen)

/-- RESULT (R155): the copy is dropped, nothing of the live state is written. -/
def execResult (s : State) : Host.Outcome State Fault Refusal :=
  match resultDigest s with
  | .ok d => .next (respondOk (.digest d) s)
  | .error e => stopped s e

/-- RESET (R160). -/
def execReset (s : State) : Host.Outcome State Fault Refusal :=
  .next (respondOk .empty (resetAccumulator s))

end Sys2Proof.Machine
end

