-- ==== Sys2Proof/Machine/HostAccess.lean ====
section
/-! DEFINITION. The meanings of READ_REG, GET_BLOCK and CLEAR_ERR (45_host_access.md). -/

namespace Sys2Proof.Machine

/-- READ_REG (R220). The decoder has rejected a number that is no register (R81), so the other branch is not reached
from a command word; R31 gives it the same error (log 21). -/
def execReadReg (r : Reg) (s : State) : Host.Outcome State Fault Refusal :=
  if r.present s.cfg then .next (respondOk (.value (regValue s r)) s)
  else .next (raiseError .illegalCommand s)

/-- GET_BLOCK (R225). Each read of a stale bit is a free value of its own (R226), so the counter of the free values
moves on; no state of the spec's is written (R42). -/
def execGetBlock (s : State) : Host.Outcome State Fault Refusal :=
  .next (respondOk (.block (readBlock s)) (spendDraws s))

/-- CLEAR_ERR (R228). -/
def execClearErr (s : State) : Host.Outcome State Fault Refusal :=
  .next (respondOk .empty (acknowledgeError s))

end Sys2Proof.Machine
end

