-- ==== Sys2Proof/Machine/Dispatch.lean ====
section
/-! DEFINITION. The dispatch: one arm per command, each one call of its meaning. -/

namespace Sys2Proof.Machine

def exec (i : Instr) (s : State) : Host.Outcome State Fault Refusal :=
  match i with
  | .processWord v bits => Sys2Proof.Machine.execProcessWord v bits s
  | .processBlock blk bits => Sys2Proof.Machine.execProcessBlock blk bits s
  | .result => Sys2Proof.Machine.execResult s
  | .reset => Sys2Proof.Machine.execReset s
  | .readReg r => Sys2Proof.Machine.execReadReg r s
  | .getBlock => Sys2Proof.Machine.execGetBlock s
  | .clearErr => Sys2Proof.Machine.execClearErr s

end Sys2Proof.Machine
end

