-- ==== Sys2Proof/Machine/Channel.lean ====
section
/-! DEFINITION. The command channel (R70): accepting a command, and what one event of the channels does. -/

namespace Sys2Proof.Machine

/-- An accepted command runs to completion (R62): its decoded command, or ILLEGAL_COMMAND (R81). -/
def runCommand (c : Command) (s : State) : Host.Outcome State Fault Refusal :=
  match decode s.cfg c.word c.payload with
  | .ok i => exec i s
  | .error _ => .next (raiseError .illegalCommand s)

/-- One event of the channels (log 10). Without one the block is idle and holds its state (R261). A command that meets
`cmd_ready` low waits until the host has taken the pending response (R70, R276). -/
def channelEvent (s : State) : Host.Outcome State Fault Refusal :=
  match s.inputs with
  | [] => .next s
  | .rst :: rest => .next (hardwareReset { s with inputs := rest })
  | .takeResponse :: rest => .next (deliver { s with inputs := rest })
  | .command c :: rest =>
    if cmdReady s then runCommand c { s with inputs := rest } else .next (deliver s)

/-- `s` with `c` as the next thing the host drives on the command channel, and the channel ready for it. -/
def presentCommand (c : Command) (s : State) : State :=
  { s with inputs := .command c :: s.inputs, rsp := none }

/-- `s` with the host driving these inputs after those it already has. -/
def drive (inputs : List HostInput) (s : State) : State :=
  { s with inputs := s.inputs ++ inputs }

end Sys2Proof.Machine
end

