-- ==== Sys2Proof/Machine/Step.lean ====
section
/-! DEFINITION. One step of the block: one event of its channels (R62). -/

namespace Sys2Proof.Machine

/-- One step. -/
def step (s : State) : Host.Outcome State Fault Refusal := channelEvent s

/-- `s` with the command word `w` presented on the command channel, its payload words zero, so that the next step
accepts and runs it (log 13). -/
def State.withFetchWord (s : State) (nbits w : Nat) : State := presentCommand (tableCommand s.cfg nbits w) s

end Sys2Proof.Machine
end

