-- ==== Sys2Proof/Machine/Assembler.lean ====
section
/-! DEFINITION. The assembler of R86 and R87: the textual command syntax, its pseudo-commands, and the transactions the
lines stand for. It is the host's tool, beside the block: no step reads it. -/

namespace Sys2Proof.Machine

/-- A line of the syntax (R86, R87), its numbers as written. -/
inductive AsmLine where
  | processW (v bits : Nat)
  | processB (ws : List Nat) (bits : Nat)
  | result
  | reset
  | readReg (reg : Nat)
  | getBlock
  | clearErr
  | word (w : Nat)
  | processWFull (v : Nat)
  | processBFull (ws : List Nat)
  | readStatus
  | readTotal
  | digestW (v bits : Nat)
  | restart
  deriving DecidableEq, Repr

/-- Why the assembler refuses a program (R86; the last four are its own, log 25). -/
inductive AsmError where
  | bitsTooLarge
  | wrongBlockLength
  | notALine
  | wordTooWide
  | registerTooWide
  | rawWordTooWide
  deriving DecidableEq, Repr

/-- The expansion of the pseudo-commands (R87). -/
def AsmLine.expand : AsmLine → List AsmLine
  | .processWFull v => [.processW v 0]
  | .processBFull ws => [.processB ws 0]
  | .readStatus => [.readReg 0x00]
  | .readTotal => [.readReg 0x08]
  | .digestW v bits => [.reset, .processW v bits, .result]
  | .restart => [.clearErr, .reset]
  | .processW v bits => [.processW v bits]
  | .processB ws bits => [.processB ws bits]
  | .result => [.result]
  | .reset => [.reset]
  | .readReg reg => [.readReg reg]
  | .getBlock => [.getBlock]
  | .clearErr => [.clearErr]
  | .word w => [.word w]

/-- A transaction with a payload of zeros, for the commands that carry none (R77, log 22). -/
def bareCommand (cfg : Config) (w : BitVec 32) : Command := ⟨w, Word.zeros cfg.W cfg.B⟩

/-- The transaction of a line that is no pseudo-command (R86); `<bits>` over the width is not refused here. -/
def assembleLine (cfg : Config) : AsmLine → Except AsmError Command
  | .processW v bits =>
    if 65535 < bits then .error .bitsTooLarge
    else if 2 ^ cfg.W ≤ v then .error .wordTooWide
    else .ok (encode cfg (.processWord (Word.ofNat cfg.W v) (BitVec.ofNat 16 bits)))
  | .processB ws bits =>
    if 65535 < bits then .error .bitsTooLarge
    else if ws.length ≠ cfg.B then .error .wrongBlockLength
    else if ws.any fun v => decide (2 ^ cfg.W ≤ v) then .error .wordTooWide
    else .ok (encode cfg (.processBlock (ws.map (Word.ofNat cfg.W)) (BitVec.ofNat 16 bits)))
  | .result => .ok (encode cfg .result)
  | .reset => .ok (encode cfg .reset)
  | .readReg reg =>
    if 256 ≤ reg then .error .registerTooWide
    else .ok (bareCommand cfg (packFields 0#16 0#4 (BitVec.ofNat 8 reg) 0x5#4))
  | .getBlock => .ok (encode cfg .getBlock)
  | .clearErr => .ok (encode cfg .clearErr)
  | .word w => if 2 ^ 32 ≤ w then .error .rawWordTooWide else .ok (bareCommand cfg (BitVec.ofNat 32 w))
  | .processWFull _ | .processBFull _ | .readStatus | .readTotal | .digestW _ _ | .restart => .error .notALine

/-- The transactions of a program, its pseudo-commands expanded. -/
def assemble (cfg : Config) (lines : List AsmLine) : Except AsmError (List Command) :=
  (lines.flatMap AsmLine.expand).mapM (assembleLine cfg)

/-! ### Text -/

/-- A token of the syntax. -/
inductive AsmToken where
  | name (cs : List Char)
  | comma
  | opening
  | closing
  deriving DecidableEq, Repr

/-- A name that has been collected, its characters in reverse. -/
def flushName : List Char → List AsmToken
  | [] => []
  | c :: cs => [.name (c :: cs).reverse]

/-- The tokens of a line; a semicolon starts a comment (R86). Characters 123 and 125 are the braces. -/
def lexLine : List Char → List Char → List AsmToken
  | [], acc => flushName acc
  | c :: cs, acc =>
    if c = ';' then flushName acc
    else if c = ' ' ∨ c = '\t' ∨ c = '\r' then flushName acc ++ lexLine cs []
    else if c = ',' then flushName acc ++ .comma :: lexLine cs []
    else if c = Char.ofNat 123 then flushName acc ++ .opening :: lexLine cs []
    else if c = Char.ofNat 125 then flushName acc ++ .closing :: lexLine cs []
    else lexLine cs (c :: acc)

/-- The value of a digit in a base up to 16. -/
def digitValue (base : Nat) (c : Char) : Option Nat :=
  let n := c.toNat
  let v := if 48 ≤ n ∧ n ≤ 57 then n - 48
    else if 65 ≤ n ∧ n ≤ 70 then n - 55
    else if 97 ≤ n ∧ n ≤ 102 then n - 87
    else 16
  if v < base then some v else none

/-- The value of digits, most significant first. -/
def digitsValue (base : Nat) : List Char → Nat → Option Nat
  | [], acc => some acc
  | c :: cs, acc =>
    match digitValue base c with
    | some d => digitsValue base cs (acc * base + d)
    | none => none

/-- A number: hexadecimal with `0x`, or decimal (R86). -/
def numberOf : List Char → Option Nat
  | [] => none
  | ['0', 'x'] => none
  | '0' :: 'x' :: cs => digitsValue 16 cs 0
  | c :: cs => digitsValue 10 (c :: cs) 0

/-- The register names of R86. -/
def registerNames : List (String × Nat) :=
  [("status", 0), ("err_cause", 1), ("bits_used", 2), ("capacity", 3), ("config", 4), ("total_seen0", 8),
    ("total_seen1", 9), ("total_seen2", 10), ("total_seen3", 11), ("total_seen4", 12), ("total_seen5", 13),
    ("total_seen6", 14), ("total_seen7", 15)]

/-- A register operand: a name of R86 or a number. -/
def registerOf (cs : List Char) : Option Nat :=
  match registerNames.find? fun r => r.1.toList == cs with
  | some r => some r.2
  | none => numberOf cs

/-- The words of a block operand, after its opening brace, and the tokens after its closing one. -/
def blockOperand : List AsmToken → Option (List Nat × List AsmToken)
  | .name v :: .comma :: rest =>
    match numberOf v, blockOperand rest with
    | some n, some (ns, more) => some (n :: ns, more)
    | _, _ => none
  | .name v :: .closing :: rest => (numberOf v).map fun n => ([n], rest)
  | _ => none

/-- A line with operands, by its mnemonic (R86, R87). -/
def parseOperands (m : List Char) (ops : List AsmToken) : Option AsmLine :=
  if m = "process.w".toList then
    match ops with
    | [.name v, .comma, .name n] => (numberOf v).bind fun v => (numberOf n).map fun n => .processW v n
    | [.name v] => (numberOf v).map .processWFull
    | _ => none
  else if m = "process.b".toList then
    match ops with
    | .opening :: rest =>
      match blockOperand rest with
      | some (ws, []) => some (.processBFull ws)
      | some (ws, [.comma, .name n]) => (numberOf n).map fun n => .processB ws n
      | _ => none
    | _ => none
  else if m = "read_reg".toList then
    match ops with
    | [.name r] => (registerOf r).map .readReg
    | _ => none
  else if m = ".word".toList then
    match ops with
    | [.name w] => (numberOf w).map .word
    | _ => none
  else if m = "digest.w".toList then
    match ops with
    | [.name v, .comma, .name n] => (numberOf v).bind fun v => (numberOf n).map fun n => .digestW v n
    | _ => none
  else if ops ≠ [] then none
  else if m = "result".toList then some .result
  else if m = "reset".toList then some .reset
  else if m = "get_block".toList then some .getBlock
  else if m = "clear_err".toList then some .clearErr
  else if m = "read_status".toList then some .readStatus
  else if m = "read_total".toList then some .readTotal
  else if m = "restart".toList then some .restart
  else none

/-- One line of text: nothing (blank or only a comment), a line of the syntax, or not a line. -/
def parseLine (cs : List Char) : Except AsmError (Option AsmLine) :=
  match lexLine cs [] with
  | [] => .ok none
  | .name m :: ops =>
    match parseOperands m ops with
    | some l => .ok (some l)
    | none => .error .notALine
  | _ => .error .notALine

/-- The lines of a text. -/
def splitLines : List Char → List Char → List (List Char)
  | [], acc => [acc.reverse]
  | c :: cs, acc => if c = '\n' then acc.reverse :: splitLines cs [] else splitLines cs (c :: acc)

/-- A program text to the transactions it stands for (R86, R87). -/
def assembleText (cfg : Config) (text : List Char) : Except AsmError (List Command) :=
  match (splitLines text []).mapM parseLine with
  | .ok lines => assemble cfg (lines.filterMap id)
  | .error e => .error e

end Sys2Proof.Machine
end

