-- ==== Sys2Proof/Safety.lean ====
section
/-! DEFINITION. The terms statements about the block are made in: the invariant of its state, the message it has taken
in, the relation of two states that differ in stale bits only, and a run of commands. -/

namespace Sys2Proof.Machine

/-- The invariant of the block between commands, from the first reset on (R270, log 14). -/
structure Inv (s : State) : Prop where
  /-- The parameters meet R8. -/
  cfg_valid : s.cfg.Valid
  /-- BUF is B words of W bits (R22). -/
  buf_shape : Word.Shape s.cfg.W s.cfg.B s.buf
  /-- FILLED < C between commands (R37). -/
  filled_lt : s.filled < s.cfg.C
  /-- TOTAL_SEEN mod C = FILLED (R38). -/
  length_inv : s.totalSeen % s.cfg.C = s.filled
  /-- TOTAL_SEEN fits TS_W bits (R24). -/
  total_lt : s.totalSeen < 2 ^ s.cfg.tsW
  /-- SW is S words of W bits (R25). -/
  sw_shape : s.cfg.kind = .sponge → Word.Shape s.cfg.W s.cfg.S s.con.sw
  /-- The live PHASE is READY or ABSORBING (R27, R172). -/
  phase_live : s.con.phase = phaseReady ∨ s.con.phase = phaseAbsorbing
  /-- ERR_CAUSE holds NONE or one of the codes 1 to 5 (R240, I21). -/
  cause_known : s.errCause.toNat ≤ 5
  /-- ERR is set exactly when ERR_CAUSE names a cause (R28, R29). -/
  err_cause : s.err = false ↔ s.errCause = statusOk
  /-- A response that is not OK has no data, and a status is NONE or one of the codes 1 to 5 (R78, R79). -/
  rsp_form : ∀ r, s.rsp = some r → r.status.toNat ≤ 5 ∧ (r.status ≠ statusOk → r.data = .empty)
  /-- The payload wires carry B words of W bits (R70). -/
  inputs_shape : ∀ c, HostInput.command c ∈ s.inputs → Word.Shape s.cfg.W s.cfg.B c.payload

/-! ### Messages -/

/-- The block of B words whose stream under BUF_ENDIAN is `bits` (R53). -/
def blockOfBits (cfg : Config) (bits : List Bool) : List Word :=
  writeStream cfg.bufEndian cfg.W (Word.zeros cfg.W cfg.B) 0 (fun k => bits.getD k false) cfg.C

/-- Absorb the first `k` blocks of C bits of a message, in order. -/
def absorbBlocks (cfg : Config) : Nat → Construction → List Bool → Construction
  | 0, c, _ => c
  | k + 1, c, m => absorbBlocks cfg k (absorbLive cfg c (blockOfBits cfg (m.take cfg.C))) (m.drop cfg.C)

/-- Absorb every full block of a message (R151: the k-th flushed block is the bits [k × C, (k+1) × C)). -/
def absorbBits (cfg : Config) (c : Construction) (m : List Bool) : Construction :=
  absorbBlocks cfg (m.length / cfg.C) c m

/-- The bits of a message after its last full block (R151). -/
def tailBits (cfg : Config) (m : List Bool) : List Bool := m.drop (m.length / cfg.C * cfg.C)

/-- The block has taken in exactly the message `m` since its reset (R151). -/
structure Holds (s : State) (m : List Bool) : Prop where
  total : s.totalSeen = m.length
  filled : s.filled = m.length % s.cfg.C
  tail : validBits s = tailBits s.cfg m
  absorbed : s.con = absorbBits s.cfg (resetConstruction s.cfg s.con) m

/-- The message bits a PROCESS command submits: the first n stream bits of its payload under IN_ENDIAN (R54, R75). -/
def submittedBits (cfg : Config) : Instr → List Bool
  | .processWord v bits => streamBits cfg.inEndian cfg.W [v] (effectiveBits cfg.W bits)
  | .processBlock blk bits => streamBits cfg.inEndian cfg.W blk (effectiveBits cfg.C bits)
  | .result | .reset | .readReg _ | .getBlock | .clearErr => []

/-- The command is one of the two PROCESS commands, with a BITS operand that its payload's width allows (R140). -/
def isSubmission (cfg : Config) : Instr → Bool
  | .processWord _ bits => !lengthInvalid cfg.W bits
  | .processBlock _ bits => !lengthInvalid cfg.C bits
  | .result | .reset | .readReg _ | .getBlock | .clearErr => false

/-- The digest of a message, as a function of the configuration and the message alone (R185). -/
def messageDigest (cfg : Config) (m : List Bool) : Except Stop (List Octet) :=
  let c := absorbBits cfg (State.resetOf cfg).con m
  match cfg.kind with
  | .sponge => digest cfg c (blockOfBits cfg (tailBits cfg m)) (tailBits cfg m).length
  | .md => .ok (mdDigest cfg c (blockOfBits cfg (tailBits cfg m)) m.length)

/-! ### Stale bits -/

/-- Two states that agree on everything but the stale bits of BUF and the number of free values used (R22, R105). -/
structure SameButStale (s t : State) : Prop where
  rest : t = { s with buf := t.buf, draws := t.draws }
  valid : validBits t = validBits s

/-- `s` and `t` agree on every field of the spec's that a command could write besides its response: BUF's bits, FILLED,
TOTAL_SEEN, the construction state, ERR and ERR_CAUSE. -/
structure SameArch (s t : State) : Prop where
  cfg : t.cfg = s.cfg
  buf : t.buf = s.buf
  filled : t.filled = s.filled
  totalSeen : t.totalSeen = s.totalSeen
  con : t.con = s.con
  err : t.err = s.err
  errCause : t.errCause = s.errCause

/-- `s` and `t` agree on what no command touches: the configuration, the host's inputs and the responses taken. -/
structure SameHost (s t : State) : Prop where
  cfg : t.cfg = s.cfg
  inputs : t.inputs = s.inputs
  delivered : t.delivered = s.delivered

/-! ### Runs -/

/-- The commands `is`, run one after the other by `exec`, each response taken before the next command. -/
def execAll : List Instr → State → Option State
  | [], s => some s
  | i :: is, s =>
    match exec i s with
    | .next t => execAll is (deliver t)
    | .fault _ => none
    | .refused _ => none

/-- The response a state offers is the empty one of a command that completed (R78, R79). -/
def respondedOk (s : State) : Prop := s.rsp = some ⟨statusOk, .empty⟩

end Sys2Proof.Machine
end

