-- ==== Sys2Proof/Certificates/Slice0/Obligations.lean ====
section
/-! DEFINITION. The statements for the provers. Each docstring names the rules of spec/ its statement formalises, or says
that it is the model's own and rests on which log entry. -/

open Sys2Proof Sys2Proof.Machine

/-! ### Encoding -/

/-- R73, R74, R77, R80, R81: decoding the transaction of a well-formed command gives the command back, every operand at
every value the encoding admits. -/
def Obligations.DecodeOfEncodeIsTheCommand : Prop :=
  ∀ (cfg : Config) (i : Instr), cfg.Valid → i.wf cfg = true →
    decode cfg (encode cfg i).word (encode cfg i).payload = .ok i

/-- R81, R83: an accepted word has one meaning, since encoding what it decodes to gives the word back, whatever
payload came with it. -/
def Obligations.EncodeOfDecodeIsTheWord : Prop :=
  ∀ (cfg : Config) (w : BitVec 32) (p : List Word) (i : Instr), decode cfg w p = .ok i → (encode cfg i).word = w

/-- R80: no word matches two rows of the opcode map, and an accepted word matches the row of its command. -/
def Obligations.OpcodeRowsDoNotOverlap : Prop :=
  (∀ (w : BitVec 32) (r₁ r₂ : OpcodeRow), r₁ ∈ opcodeRows → r₂ ∈ opcodeRows →
    r₁.matches w = true → r₂.matches w = true → r₁ = r₂) ∧
  (∀ (cfg : Config) (w : BitVec 32) (p : List Word) (i : Instr), decode cfg w p = .ok i →
    ∃ row ∈ opcodeRows, row.mnemonic = i.mnemonic ∧ row.matches w = true)

/-- R81, R82, R83: the decoder rejects exactly the words with a reserved OPC, a non-zero RSV, a non-zero field the
opcode does not use, or a READ_REG number outside the map of R31; and a rejected word raises ILLEGAL_COMMAND and
changes nothing else. -/
def Obligations.IllegalWordsAreExactlyTheseAndRaiseIllegalCommand : Prop :=
  (∀ (cfg : Config) (w : BitVec 32) (p : List Word),
    (∃ e, decode cfg w p = .error e) ↔
      (w.toNat % 16 = 0 ∨ 8 ≤ w.toNat % 16) ∨
      w.toNat / 2 ^ 12 % 16 ≠ 0 ∨
      (w.toNat % 16 ≠ 5 ∧ w.toNat / 2 ^ 4 % 256 ≠ 0) ∨
      (w.toNat % 16 ≠ 1 ∧ w.toNat % 16 ≠ 2 ∧ w.toNat / 2 ^ 16 ≠ 0) ∨
      (w.toNat % 16 = 5 ∧ 4 < w.toNat / 2 ^ 4 % 256 ∧
        ¬ (8 ≤ w.toNat / 2 ^ 4 % 256 ∧ w.toNat / 2 ^ 4 % 256 < 8 + cfg.tsW / 64))) ∧
  (∀ (s : State) (c : Command) (rest : List HostInput) (e : Illegal), s.inputs = .command c :: rest → s.rsp = none →
    decode s.cfg c.word c.payload = .error e →
    step s = .next { s with inputs := rest, err := true, errCause := 1#4, rsp := some ⟨1#4, .empty⟩ })

/-- R88: the encoded command words of the spec's table, under T1, on a payload of two words. -/
def Obligations.SpecCommandWordsDecode : Prop :=
  ∀ v v' : Word,
    decode .t1 0x00000001#32 [v, v'] = .ok (.processWord v 0#16) ∧
    decode .t1 0x00040001#32 [v, v'] = .ok (.processWord v 4#16) ∧
    decode .t1 0x00080001#32 [v, v'] = .ok (.processWord v 8#16) ∧
    decode .t1 0x000C0002#32 [v, v'] = .ok (.processBlock [v, v'] 12#16) ∧
    decode .t1 0x00000002#32 [v, v'] = .ok (.processBlock [v, v'] 0#16) ∧
    decode .t1 0x00000003#32 [v, v'] = .ok .result ∧
    decode .t1 0x00000004#32 [v, v'] = .ok .reset ∧
    decode .t1 0x00000005#32 [v, v'] = .ok (.readReg .status) ∧
    decode .t1 0x00000025#32 [v, v'] = .ok (.readReg .bitsUsed) ∧
    decode .t1 0x00000085#32 [v, v'] = .ok (.readReg (.totalSeen 0)) ∧
    decode .t1 0x00000045#32 [v, v'] = .ok (.readReg .config) ∧
    decode .t1 0x00000006#32 [v, v'] = .ok .getBlock ∧
    decode .t1 0x00000007#32 [v, v'] = .ok .clearErr ∧
    decode .t1 0x00000000#32 [v, v'] = .error .reservedOpcode ∧
    decode .t1 0x00010003#32 [v, v'] = .error .unusedBits ∧
    decode .t1 0x00001001#32 [v, v'] = .error .nonzeroReserved ∧
    decode .t1 0x00000015#32 [v, v'] = .ok (.readReg .errCause) ∧
    decode .t1 0x00000065#32 [v, v'] = .error .notARegister

/-- R86, of `process.w` and `process.b` lines: the assembler refuses a count over 65535 and a list of another length than
B; it does not refuse a count over the width, which reaches the block as a PROCESS command with that count. That a word
too wide for W is refused is the model's choice (log 25), so the last two clauses are about words that fit. -/
def Obligations.AssemblerChecksCountsAndBlockLength : Prop :=
  ∀ (cfg : Config), cfg.Valid →
    (∀ v bits : Nat, 65535 < bits → assembleLine cfg (.processW v bits) = .error .bitsTooLarge) ∧
    (∀ (ws : List Nat) (bits : Nat), 65535 < bits → assembleLine cfg (.processB ws bits) = .error .bitsTooLarge) ∧
    (∀ (ws : List Nat) (bits : Nat), bits ≤ 65535 → ws.length ≠ cfg.B →
      assembleLine cfg (.processB ws bits) = .error .wrongBlockLength) ∧
    (∀ v bits : Nat, bits ≤ 65535 → v < 2 ^ cfg.W → ∃ c, assembleLine cfg (.processW v bits) = .ok c ∧
      decode cfg c.word c.payload = .ok (.processWord (Word.ofNat cfg.W v) (BitVec.ofNat 16 bits)) ∧
      (Word.ofNat cfg.W v).toNat = v) ∧
    (∀ (ws : List Nat) (bits : Nat), bits ≤ 65535 → ws.length = cfg.B → (∀ v ∈ ws, v < 2 ^ cfg.W) →
      ∃ c, assembleLine cfg (.processB ws bits) = .ok c ∧
        decode cfg c.word c.payload = .ok (.processBlock (ws.map (Word.ofNat cfg.W)) (BitVec.ofNat 16 bits)))

/-- R87: the expansions of the pseudo-commands. -/
def Obligations.PseudoCommandsExpandAsListed : Prop :=
  ∀ (v bits : Nat) (ws : List Nat),
    (AsmLine.processWFull v).expand = [.processW v 0] ∧
    (AsmLine.processBFull ws).expand = [.processB ws 0] ∧
    AsmLine.readStatus.expand = [.readReg 0x00] ∧
    AsmLine.readTotal.expand = [.readReg 0x08] ∧
    (AsmLine.digestW v bits).expand = [.reset, .processW v bits, .result] ∧
    AsmLine.restart.expand = [.clearErr, .reset]

/-! ### The step and the channels -/

/-- R62, R70, R81: when the host presents a command word that decodes to `i` and no response is pending, the step is
`exec i` on the state with that input consumed; nothing else is added around it. The second clause is the model's own
(log 13): the host's probe `withFetchWord` places a command word with a payload of zeros so that the next step runs it. -/
def Obligations.StepRunsTheDecodedCommand : Prop :=
  (∀ (s : State) (c : Command) (rest : List HostInput) (i : Instr), s.inputs = .command c :: rest → s.rsp = none →
    decode s.cfg c.word c.payload = .ok i → step s = exec i { s with inputs := rest }) ∧
  (∀ (s : State) (nbits w : Nat) (i : Instr),
    decode s.cfg (tableCommand s.cfg nbits w).word (tableCommand s.cfg nbits w).payload = .ok i →
    step (s.withFetchWord nbits w) = exec i { s with rsp := none })

/-- R70, R71, R261, R276: a command that meets a pending response is not accepted; the response is taken first and the
command stays presented. A response that is offered is taken once. With no input the block holds all its state. The
order of the host's inputs is the model's (log 10). -/
def Obligations.OneCommandAtATime : Prop :=
  (∀ (s : State) (c : Command) (rest : List HostInput) (r : Response), s.inputs = .command c :: rest →
    s.rsp = some r → step s = .next { s with rsp := none, delivered := s.delivered ++ [r] }) ∧
  (∀ (s : State) (rest : List HostInput) (r : Response), s.inputs = .takeResponse :: rest → s.rsp = some r →
    step s = .next { s with inputs := rest, rsp := none, delivered := s.delivered ++ [r] }) ∧
  (∀ (s : State) (rest : List HostInput), s.inputs = .takeResponse :: rest → s.rsp = none →
    step s = .next { s with inputs := rest }) ∧
  (∀ s : State, s.inputs = [] → step s = .next s)

/-- R71, R78, R79: every accepted command, legal or not, ends with exactly one response, whose data has the shape of
the command and whose status is an error's code exactly when an error was raised (then without data). -/
def Obligations.EveryAcceptedCommandHasOneResponse : Prop :=
  ∀ (s : State) (c : Command), Inv s → s.rsp = none → Word.Shape s.cfg.W s.cfg.B c.payload →
    ∃ t r, runCommand c s = .next t ∧ t.rsp = some r ∧ t.delivered = s.delivered ∧ t.inputs = s.inputs ∧
      t.cfg = s.cfg ∧
      (r.status ≠ 0#4 → r.data = .empty ∧ t.err = true ∧ t.errCause = r.status) ∧
      (r.status = 0#4 → ∃ i, decode s.cfg c.word c.payload = .ok i ∧
        match i with
        | .processWord _ _ | .processBlock _ _ | .reset | .clearErr => r.data = .empty
        | .result => ∃ d, r.data = .digest d ∧ d.length = s.cfg.digestBits / 8
        | .readReg _ => ∃ v, r.data = .value v
        | .getBlock => ∃ ws, r.data = .block ws ∧ Word.Shape s.cfg.W s.cfg.B ws)

/-- R40, R57: no step changes the configuration. -/
def Obligations.NoStepChangesTheConfiguration : Prop :=
  ∀ s t : State, step s = .next t → t.cfg = s.cfg

/-! ### Invariants -/

/-- R37, R38, R41: the invariant holds after reset, of every valid configuration; T1 is one. -/
def Obligations.InvariantHoldsAtReset : Prop :=
  (∀ cfg : Config, cfg.Valid → Inv (State.resetOf cfg)) ∧ Config.t1.Valid ∧ Inv State.reset

/-- R37, R38, R27, R282: from every state that meets the invariant a step answers a next state that meets it. So no
command makes the block stuck, FILLED stays below C and equal to TOTAL_SEEN mod C, TOTAL_SEEN never wraps, the live
PHASE is never SQUEEZING, and BUF and SW keep their shapes. -/
def Obligations.EveryStepKeepsTheInvariant : Prop :=
  ∀ s : State, Inv s → ∃ t, step s = .next t ∧ Inv t

/-- R270, R274: before the first reset every piece of state is any value, and a reset, by `rst` or by RESET, brings
the block into its invariant from there. Only what is wiring has a shape: the words of BUF and of the payloads. -/
def Obligations.ResetEstablishesTheInvariant : Prop :=
  ∀ s : State, s.cfg.Valid → Word.Shape s.cfg.W s.cfg.B s.buf →
    (∀ c, HostInput.command c ∈ s.inputs → Word.Shape s.cfg.W s.cfg.B c.payload) →
    (∃ t, exec .reset s = .next t ∧ Inv t) ∧
    (∀ rest, s.inputs = .rst :: rest → ∃ t, step s = .next t ∧ Inv t)

/-! ### Streams and the Injector -/

/-- R52: for every policy and width, pos is a bijection on the word's bits, and it is the mapping each policy names. -/
def Obligations.StreamMappingIsABijection : Prop :=
  ∀ (W : Nat), 8 ∣ W →
    (∀ (pol : Policy),
      (∀ j < W, pos pol W j < W) ∧
      (∀ j < W, ∀ j' < W, pos pol W j = pos pol W j' → j = j') ∧
      (∀ i < W, ∃ j < W, pos pol W j = i)) ∧
    (∀ j < W,
      pos .LOLB W j = j ∧
      pos .BOBB W j = W - 1 - j ∧
      pos .LOBB W j = 8 * (j / 8) + (7 - j % 8) ∧
      pos .BOLB W j = W - 8 - 8 * (j / 8) + j % 8)

/-- R120, R121, R123: inside its precondition INJECT copies exactly the n bits of the range and changes no other bit of
the destination; outside it is refused. -/
def Obligations.InjectCopiesExactlyTheRange : Prop :=
  ∀ (src dst : List Word) (spol dpol : Policy) (Ws Wd n doff soff m : Nat), 8 ∣ Wd → Word.Shape Wd m dst →
    (soff + n ≤ src.length * Ws → doff + n ≤ m * Wd →
      ∃ out, inject src spol Ws n dst dpol Wd doff soff = .ok out ∧ Word.Shape Wd m out ∧
        ∀ q, streamBit dpol Wd out q =
          if doff ≤ q ∧ q < doff + n then streamBit spol Ws src (soff + (q - doff)) else streamBit dpol Wd dst q) ∧
    (¬ (soff + n ≤ src.length * Ws ∧ doff + n ≤ m * Wd) →
      inject src spol Ws n dst dpol Wd doff soff = .error .injectOutOfRange)

/-- R128: two INJECTs of adjacent source ranges to adjacent destination ranges equal one over the joined range. -/
def Obligations.AdjacentInjectsCompose : Prop :=
  ∀ (src dst : List Word) (spol dpol : Policy) (Ws Wd n₁ n₂ doff soff m : Nat), Word.Shape Wd m dst →
    soff + (n₁ + n₂) ≤ src.length * Ws → doff + (n₁ + n₂) ≤ m * Wd →
    ∃ mid out, inject src spol Ws n₁ dst dpol Wd doff soff = .ok mid ∧
      inject src spol Ws n₂ mid dpol Wd (doff + n₁) (soff + n₁) = .ok out ∧
      inject src spol Ws (n₁ + n₂) dst dpol Wd doff soff = .ok out

/-- R126, R103: with one policy and one width and all offsets at word boundaries, INJECT copies whole words; over whole
arrays it is an assignment. So the fast paths of APPEND give the same bits there. -/
def Obligations.AlignedInjectCopiesWholeWords : Prop :=
  ∀ (src dst : List Word) (pol : Policy) (W a b k n m : Nat), 8 ∣ W → 0 < W → Word.Shape W n src →
    Word.Shape W m dst → a + k ≤ n → b + k ≤ m →
    (∃ out, inject src pol W (k * W) dst pol W (b * W) (a * W) = .ok out ∧ out.length = m ∧
      (∀ i < k, out.getD (b + i) [] = src.getD (a + i) []) ∧
      (∀ i < m, ¬ (b ≤ i ∧ i < b + k) → out.getD i [] = dst.getD i [])) ∧
    (n = m → inject src pol W (n * W) dst pol W 0 0 = .ok src)

/-- R127: what INJECT does to one whole word between two policies. -/
def Obligations.WholeWordPolicyConversions : Prop :=
  ∀ (W : Nat) (v d : Word), 8 ∣ W → v.length = W → d.length = W →
    (∀ pol pol' : Policy, ∃ out, out.length = W ∧ inject [v] pol W W [d] pol' W 0 0 = .ok [out]) ∧
    (∀ (pol pol' : Policy) (out : Word), inject [v] pol W W [d] pol' W 0 0 = .ok [out] →
      ((pol, pol') = (.LOLB, .BOBB) ∨ (pol, pol') = (.BOBB, .LOLB) → ∀ i < W, out.bit i = v.bit (W - 1 - i)) ∧
      ((pol, pol') = (.LOBB, .BOBB) ∨ (pol, pol') = (.BOBB, .LOBB) ∨ (pol, pol') = (.LOLB, .BOLB) ∨
          (pol, pol') = (.BOLB, .LOLB) →
        ∀ i < W, out.bit i = v.bit (W - 8 - 8 * (i / 8) + i % 8)) ∧
      ((pol, pol') = (.LOLB, .LOBB) ∨ (pol, pol') = (.LOBB, .LOLB) ∨ (pol, pol') = (.BOLB, .BOBB) ∨
          (pol, pol') = (.BOBB, .BOLB) →
        ∀ i < W, out.bit i = v.bit (8 * (i / 8) + (7 - i % 8))) ∧
      (pol = pol' → out = v))

/-! ### The Bit Buffer -/

/-- R102, R104, R105: APPEND of n bits that fit writes exactly the stream positions FILLED to FILLED+n-1, keeps the valid
bits below, leaves any value at every position above, grows FILLED by n and writes nothing else of the spec's; one that
does not fit raises CAPACITY_VIOLATION. Two points are the model's: the numbering of the free values, and the counter
`draws` (log 7); and the capacity check on whole numbers in a state with FILLED > C, which R37 rules out (log 16). -/
def Obligations.AppendWritesTheBitsAtTheCursor : Prop :=
  ∀ (s : State) (src : List Word) (n soff : Nat), s.cfg.Valid → Word.Shape s.cfg.W s.cfg.B s.buf →
    soff + n ≤ src.length * s.cfg.W →
    (s.filled + n ≤ s.cfg.C → ∃ t, append src n soff s = .ok t ∧
      t = { s with buf := t.buf, filled := s.filled + n, draws := t.draws } ∧
      Word.Shape s.cfg.W s.cfg.B t.buf ∧
      (∀ p < s.filled, streamBit s.cfg.bufEndian s.cfg.W t.buf p = streamBit s.cfg.bufEndian s.cfg.W s.buf p) ∧
      (∀ k < n, streamBit s.cfg.bufEndian s.cfg.W t.buf (s.filled + k)
        = streamBit s.cfg.inEndian s.cfg.W src (soff + k)) ∧
      (∀ p, s.filled + n ≤ p → p < s.cfg.C →
        streamBit s.cfg.bufEndian s.cfg.W t.buf p = Config.freeBit (s.draws + p))) ∧
    (s.cfg.C < s.filled + n → append src n soff s = .error (.raise .capacityViolation))

/-- R248, R104: no command and no sequence of commands produces CAPACITY_VIOLATION. -/
def Obligations.CapacityViolationIsUnreachable : Prop :=
  causeCode .capacityViolation = 3#4 ∧
  (∀ (s : State) (c : Command), Inv s → Word.Shape s.cfg.W s.cfg.B c.payload →
    ∃ t r, runCommand c s = .next t ∧ t.rsp = some r ∧ r.status ≠ 3#4) ∧
  (∀ s : State, Inv s → s.errCause ≠ 3#4 → ∃ t, step s = .next t ∧ t.errCause ≠ 3#4)

/-! ### PROCESS -/

/-- R142, R75, R146 to R151: PROCESS_WORD with a count its width allows, and room in TOTAL_SEEN, completes. FILLED and
TOTAL_SEEN grow by the effective count (FILLED modulo C); the buffer's valid bits and the bits submitted are absorbed
block by block, (F0 + n) div C of them, and the rest are the valid bits; ERR, ERR_CAUSE and everything of the host's
stay. -/
def Obligations.ProcessWordTakesInItsBits : Prop :=
  ∀ (s : State) (v : Word) (bits : BitVec 16), Inv s → v.length = s.cfg.W → bits.toNat ≤ s.cfg.W →
    s.totalSeen + (if bits.toNat = 0 then s.cfg.W else bits.toNat) ≤ 2 ^ s.cfg.tsW - 1 →
    ∃ t n, n = (if bits.toNat = 0 then s.cfg.W else bits.toNat) ∧
      exec (.processWord v bits) s = .next t ∧ respondedOk t ∧
      t.totalSeen = s.totalSeen + n ∧ t.filled = (s.filled + n) % s.cfg.C ∧
      validBits t = tailBits s.cfg (validBits s ++ streamBits s.cfg.inEndian s.cfg.W [v] n) ∧
      t.con = absorbBlocks s.cfg ((s.filled + n) / s.cfg.C) s.con
        (validBits s ++ streamBits s.cfg.inEndian s.cfg.W [v] n) ∧
      Word.Shape s.cfg.W s.cfg.B t.buf ∧ t.err = s.err ∧ t.errCause = s.errCause ∧ SameHost s t

/-- R143, R75, R146 to R151: the same of PROCESS_BLOCK, with C in place of W. -/
def Obligations.ProcessBlockTakesInItsBits : Prop :=
  ∀ (s : State) (blk : List Word) (bits : BitVec 16), Inv s → Word.Shape s.cfg.W s.cfg.B blk →
    bits.toNat ≤ s.cfg.C →
    s.totalSeen + (if bits.toNat = 0 then s.cfg.C else bits.toNat) ≤ 2 ^ s.cfg.tsW - 1 →
    ∃ t n, n = (if bits.toNat = 0 then s.cfg.C else bits.toNat) ∧
      exec (.processBlock blk bits) s = .next t ∧ respondedOk t ∧
      t.totalSeen = s.totalSeen + n ∧ t.filled = (s.filled + n) % s.cfg.C ∧
      validBits t = tailBits s.cfg (validBits s ++ streamBits s.cfg.inEndian s.cfg.W blk n) ∧
      t.con = absorbBlocks s.cfg ((s.filled + n) / s.cfg.C) s.con
        (validBits s ++ streamBits s.cfg.inEndian s.cfg.W blk n) ∧
      Word.Shape s.cfg.W s.cfg.B t.buf ∧ t.err = s.err ∧ t.errCause = s.errCause ∧ SameHost s t

/-- R140: a BITS field greater than the payload's width raises INVALID_LENGTH and changes no state other than ERR and
ERR_CAUSE, in every state. -/
def Obligations.TooManyBitsRaiseInvalidLength : Prop :=
  ∀ (s : State) (v : Word) (blk : List Word) (bits : BitVec 16),
    (s.cfg.W < bits.toNat → exec (.processWord v bits) s
      = .next { s with err := true, errCause := 2#4, rsp := some ⟨2#4, .empty⟩ }) ∧
    (s.cfg.C < bits.toNat → exec (.processBlock blk bits) s
      = .next { s with err := true, errCause := 2#4, rsp := some ⟨2#4, .empty⟩ })

/-- R141: a submission that would carry TOTAL_SEEN past 2^TS_W - 1 raises LENGTH_OVERFLOW and changes no state other
than ERR and ERR_CAUSE, in every state; R75 gives the effective count. -/
def Obligations.TotalSeenNeverWraps : Prop :=
  ∀ (s : State) (v : Word) (blk : List Word) (bits : BitVec 16),
    (bits.toNat ≤ s.cfg.W →
      2 ^ s.cfg.tsW - 1 < s.totalSeen + (if bits.toNat = 0 then s.cfg.W else bits.toNat) →
      exec (.processWord v bits) s
        = .next { s with err := true, errCause := 4#4, rsp := some ⟨4#4, .empty⟩ }) ∧
    (bits.toNat ≤ s.cfg.C →
      2 ^ s.cfg.tsW - 1 < s.totalSeen + (if bits.toNat = 0 then s.cfg.C else bits.toNat) →
      exec (.processBlock blk bits) s
        = .next { s with err := true, errCause := 4#4, rsp := some ⟨4#4, .empty⟩ })

/-- R144: a PROCESS command word reports the first that applies of ILLEGAL_COMMAND, INVALID_LENGTH and
LENGTH_OVERFLOW, in this order, and an erroring one changes nothing but ERR and ERR_CAUSE. -/
def Obligations.ProcessReportsTheFirstError : Prop :=
  ∀ (s : State) (c : Command) (rest : List HostInput) (width : Nat), Inv s → s.rsp = none →
    s.inputs = .command c :: rest →
    (c.word.toNat % 16 = 1 ∧ width = s.cfg.W ∨ c.word.toNat % 16 = 2 ∧ width = s.cfg.C) →
    ∃ t r, step s = .next t ∧ t.rsp = some r ∧
      r.status =
        (if c.word.toNat / 2 ^ 4 % 2 ^ 12 ≠ 0 then 1#4
         else if width < c.word.toNat / 2 ^ 16 then 2#4
         else if 2 ^ s.cfg.tsW - 1
            < s.totalSeen + (if c.word.toNat / 2 ^ 16 = 0 then width else c.word.toNat / 2 ^ 16) then 4#4
         else 0#4) ∧
      (r.status ≠ 0#4 → t = { s with inputs := rest, err := true, errCause := r.status, rsp := some ⟨r.status, .empty⟩ })

/-- R151: a submission that succeeds in a state that holds the message m leaves a state that holds m followed by the
bits submitted. The blocks absorbed over the life since reset are the message's full blocks in order; FILLED is the
length of the rest, which is in the buffer. -/
def Obligations.SubmissionExtendsTheMessage : Prop :=
  ∀ (s : State) (m : List Bool) (i : Instr), Inv s → Holds s m → i.wf s.cfg = true → isSubmission s.cfg i = true →
    m.length + (submittedBits s.cfg i).length ≤ 2 ^ s.cfg.tsW - 1 →
    ∃ t, exec i s = .next t ∧ respondedOk t ∧ Holds t (m ++ submittedBits s.cfg i)

/-- R160, R275: RESET, and `rst`, start a new message. -/
def Obligations.ResetStartsAnEmptyMessage : Prop :=
  (∀ s : State, ∃ t, exec .reset s = .next t ∧ Holds t []) ∧ (∀ s : State, Holds (hardwareReset s) [])

/-- R154: two sequences of PROCESS commands that submit the same bits lead from one state to states with the same
FILLED, TOTAL_SEEN, construction state and valid bits of BUF, and the next RESULT answers the same. -/
def Obligations.ChunkSplitsDoNotMatter : Prop :=
  ∀ (s : State) (is js : List Instr), Inv s →
    (∀ i ∈ is, i.wf s.cfg = true ∧ isSubmission s.cfg i = true) →
    (∀ j ∈ js, j.wf s.cfg = true ∧ isSubmission s.cfg j = true) →
    is.flatMap (submittedBits s.cfg) = js.flatMap (submittedBits s.cfg) →
    s.totalSeen + (is.flatMap (submittedBits s.cfg)).length ≤ 2 ^ s.cfg.tsW - 1 →
    ∃ t u t' u', execAll is s = some t ∧ execAll js s = some u ∧
      t.filled = u.filled ∧ t.totalSeen = u.totalSeen ∧ t.con = u.con ∧ validBits t = validBits u ∧
      exec .result t = .next t' ∧ exec .result u = .next u' ∧ t'.rsp = u'.rsp

/-! ### The construction, padding and RESULT -/

/-- R170, R55: ABSORB XORs the block into the first B words of SW, word by word (so stream bit by stream bit), leaves
the others, permutes, and sets ABSORBING. -/
def Obligations.AbsorbXorsTheRateAndPermutes : Prop :=
  ∀ (cfg : Config) (c : Construction) (blk : List Word), cfg.Valid → cfg.kind = .sponge →
    Word.Shape cfg.W cfg.S c.sw → Word.Shape cfg.W cfg.B blk →
    ∃ x, absorb cfg c blk = { c with sw := permute cfg x, phase := 1#2 } ∧ Word.Shape cfg.W cfg.S x ∧
      (∀ i < cfg.B, x.getD i [] = Word.xor (c.sw.getD i []) (blk.getD i [])) ∧
      (∀ i, cfg.B ≤ i → x.getD i [] = c.sw.getD i []) ∧
      (∀ p < cfg.C, streamBit cfg.bufEndian cfg.W x p
        = Bool.xor (streamBit cfg.bufEndian cfg.W c.sw p) (streamBit cfg.bufEndian cfg.W blk p))

/-- R203, R192: PAD depends on the valid bits of the block only, and so does MD_FINAL. -/
def Obligations.PaddingReadsTheValidBitsOnly : Prop :=
  ∀ (cfg : Config) (blk blk' : List Word) (bf : Nat),
    (∀ p < bf, streamBit cfg.bufEndian cfg.W blk p = streamBit cfg.bufEndian cfg.W blk' p) →
    pad cfg blk bf = pad cfg blk' bf ∧
    ∀ (mds total : Nat), total % cfg.C = bf → mdFinal cfg mds blk total = mdFinal cfg mds blk' total

/-- R206, R204: PAD_101 answers one block or, exactly when bf = C - 1, two; the valid bits, then the marker, zeros, and
the final bit at the last position of the last block. -/
def Obligations.ReferencePaddingIsPad101 : Prop :=
  ∀ (cfg : Config) (blk : List Word) (bf : Nat), cfg.Valid → Word.Shape cfg.W cfg.B blk → bf < cfg.C →
    (bf + 1 < cfg.C → ∃ b, pad101 cfg blk bf = [b] ∧ Word.Shape cfg.W cfg.B b ∧
      ∀ p < cfg.C, streamBit cfg.bufEndian cfg.W b p =
        if p < bf then streamBit cfg.bufEndian cfg.W blk p else decide (p = bf ∨ p = cfg.C - 1)) ∧
    (bf + 1 = cfg.C → ∃ b₁ b₂, pad101 cfg blk bf = [b₁, b₂] ∧
      Word.Shape cfg.W cfg.B b₁ ∧ Word.Shape cfg.W cfg.B b₂ ∧
      (∀ p < cfg.C, streamBit cfg.bufEndian cfg.W b₁ p =
        if p < bf then streamBit cfg.bufEndian cfg.W blk p else true) ∧
      (∀ p < cfg.C, streamBit cfg.bufEndian cfg.W b₂ p = decide (p = cfg.C - 1)))

/-- R186, R188: the default PACK copies stream bit p of the words under BUF_ENDIAN to digest stream bit p: octet p div 8
at the place DIGEST_ENDIAN's bit order gives p mod 8, whatever its octet order. -/
def Obligations.DefaultPackKeepsTheStream : Prop :=
  ∀ (cfg : Config) (words : List Word), cfg.Valid →
    ∃ octs, packDefault cfg words = .ok octs ∧ octs.length = words.length * cfg.W / 8 ∧
      ∀ p < words.length * cfg.W,
        (octs.getD (p / 8) 0#8).getLsbD
            (match cfg.digestEndian.bit with | .little => p % 8 | .big => 7 - p % 8)
          = streamBit cfg.bufEndian cfg.W words p

/-- R155, R173, R175 to R178: RESULT on the sponge path, with a PAD that keeps its contract, completes. The padded blocks
are absorbed in order into a copy; the k-th of ceil(DIGEST_BITS/C) squeezes gives the first B words of the copy's state
permuted k times, taken before its own permutation; the digest is the first DIGEST_BITS/8 octets of their packing.
Nothing of the state but the response is written. -/
def Obligations.ResultReturnsTheSpongeDigest : Prop :=
  ∀ s : State, Inv s → s.cfg.kind = .sponge → (pad s.cfg s.buf s.filled).length ≤ 2 →
    ∃ sw octs q, sw = ((pad s.cfg s.buf s.filled).foldl (absorb s.cfg) s.con).sw ∧
      packWords s.cfg ((List.range q).flatMap fun k => ((permute s.cfg)^[k] sw).take s.cfg.B) = .ok octs ∧
      s.cfg.digestBits ≤ q * s.cfg.C ∧ q * s.cfg.C < s.cfg.digestBits + s.cfg.C ∧
      (octs.take (s.cfg.digestBits / 8)).length = s.cfg.digestBits / 8 ∧
      exec .result s = .next { s with rsp := some ⟨0#4, .digest (octs.take (s.cfg.digestBits / 8))⟩ }

/-- R174, R250: a PAD that returns more than two blocks makes RESULT raise PAD_CONTRACT and return no digest; the live
state is unchanged. -/
def Obligations.ExcessPaddingRaisesPadContract : Prop :=
  ∀ s : State, Inv s → s.cfg.kind = .sponge → 2 < (pad s.cfg s.buf s.filled).length →
    exec .result s = .next { s with err := true, errCause := 5#4, rsp := some ⟨5#4, .empty⟩ }

/-- R191, R192, R158: RESULT on the MD path returns MD_FINAL of the chaining state, the buffer and TOTAL_SEEN, exactly
DIGEST_OCTETS octets, and writes nothing but the response. -/
def Obligations.ResultReturnsTheMdDigest : Prop :=
  ∀ s : State, Inv s → s.cfg.kind = .md →
    (mdFinal s.cfg s.con.mds s.buf s.totalSeen).length = s.cfg.digestBits / 8 ∧
    exec .result s = .next { s with rsp := some ⟨0#4, .digest (mdFinal s.cfg s.con.mds s.buf s.totalSeen)⟩ }

/-- R156: a second RESULT with no PROCESS in between answers the same, and neither writes BUF, FILLED, TOTAL_SEEN or the
construction state. ERR and ERR_CAUSE stay when the answer is OK and hold its error when it is not (R242). That `draws`
stays is the model's own (log 7). -/
def Obligations.ResultIsAPeek : Prop :=
  ∀ s : State, Inv s → ∃ t u r, exec .result s = .next t ∧ exec .result (deliver t) = .next u ∧
    t.rsp = some r ∧ u.rsp = some r ∧
    (∀ x ∈ [t, u], x.buf = s.buf ∧ x.filled = s.filled ∧ x.totalSeen = s.totalSeen ∧ x.con = s.con ∧
      x.draws = s.draws ∧ (r.status = 0#4 → x.err = s.err ∧ x.errCause = s.errCause) ∧
      (r.status ≠ 0#4 → x.err = true ∧ x.errCause = r.status))

/-- R185, R159: in a state that holds the message m, RESULT's digest is a function of the configuration and m alone; so
two states of one configuration that hold the same message answer the same, whatever else they hold. -/
def Obligations.DigestIsAFunctionOfTheMessage : Prop :=
  (∀ (s : State) (m : List Bool), Inv s → Holds s m → resultDigest s = messageDigest s.cfg m ∧
    ∃ t, exec .result s = .next t ∧ ∀ d, messageDigest s.cfg m = .ok d → t.rsp = some ⟨0#4, .digest d⟩) ∧
  (∀ (s s' : State) (m : List Bool), Inv s → Inv s' → s'.cfg = s.cfg → Holds s m → Holds s' m →
    ∃ t t', exec .result s = .next t ∧ exec .result s' = .next t' ∧ t'.rsp = t.rsp)

/-- R171, R190: a live state that has taken in the blocks b1 … bk and fewer than C bits after them holds
PERMUTE(… PERMUTE(IV ⊕ b1) … ⊕ bk) in SW, or on the MD path the k compressions of MD_IV in MDS; PHASE is READY with no
block absorbed and ABSORBING with any (R172). -/
def Obligations.LiveStateIsTheFoldOfItsBlocks : Prop :=
  ∀ (s : State) (blocks : List (List Word)) (rest : List Bool), Inv s →
    (∀ b ∈ blocks, Word.Shape s.cfg.W s.cfg.B b) → rest.length < s.cfg.C →
    Holds s ((blocks.flatMap fun b => streamBits s.cfg.bufEndian s.cfg.W b s.cfg.C) ++ rest) →
    (s.cfg.kind = .sponge → s.con.sw = blocks.foldl (fun sw b => permute s.cfg (xorInto sw b)) s.cfg.iv) ∧
    (s.cfg.kind = .md → s.con.mds = blocks.foldl (mdCompress s.cfg) s.cfg.mdIv) ∧
    s.con.phase = (if blocks = [] then 0#2 else 1#2)

/-- R172, R27: no step but a reset brings PHASE from ABSORBING back to READY, and none brings it to SQUEEZING. -/
def Obligations.OnlyResetReturnsToReady : Prop :=
  ∀ s t : State, Inv s → step s = .next t →
    t.con.phase ≠ phaseSqueezing ∧
    (s.con.phase = phaseAbsorbing → t.con.phase = phaseReady →
      ∃ rest, s.inputs = .rst :: rest ∨
        ∃ c, s.inputs = .command c :: rest ∧ s.rsp = none ∧ decode s.cfg c.word c.payload = .ok .reset)

/-! ### Host access -/

/-- R222: READ_REG of every register of the map completes, writes nothing but the response, and a second READ_REG after
that response is taken answers the same value. -/
def Obligations.ReadRegHasNoSideEffects : Prop :=
  ∀ (s : State) (r : Reg), r.present s.cfg = true →
    ∃ t v, exec (.readReg r) s = .next t ∧ t = { s with rsp := some ⟨0#4, .value v⟩ } ∧
      ∃ u, exec (.readReg r) (deliver t) = .next u ∧ u.rsp = some ⟨0#4, .value v⟩

/-- R32: the fields of STATUS, in every state; between commands IS_FULL reads 0 and PHASE reads 0 or 1. -/
def Obligations.StatusRegisterFields : Prop :=
  ∀ s : State, ∃ t v, exec (.readReg .status) s = .next t ∧ t.rsp = some ⟨0#4, .value v⟩ ∧
    v.toNat = (if s.filled = 0 then 1 else 0) + (if s.filled = s.cfg.C then 2 else 0)
      + (if s.filled % s.cfg.W = 0 then 4 else 0) + (if s.err then 8 else 0) + 16 * s.con.phase.toNat
      + (if s.cfg.kind = .md then 64 else 0) ∧
    (Inv s → v.toNat / 2 % 2 = 0 ∧ v.toNat / 16 % 4 ≤ 1)

/-- R33, R51: the codes of the four policies, and the fields of CONFIG, for a number of state words that fits its field
(log 18 has the others). -/
def Obligations.ConfigRegisterFields : Prop :=
  (policyCode .LOLB = 0#2 ∧ policyCode .LOBB = 1#2 ∧ policyCode .BOLB = 2#2 ∧ policyCode .BOBB = 3#2 ∧
    ∀ pol : Policy, pol ∈ [Policy.LOLB, .LOBB, .BOLB, .BOBB]) ∧
  ∀ s : State, s.cfg.Valid → (s.cfg.kind = .sponge → s.cfg.S < 256) →
    ∃ t v, exec (.readReg .config) s = .next t ∧ t.rsp = some ⟨0#4, .value v⟩ ∧
      v.toNat = s.cfg.W / 8 + 2 ^ 8 * s.cfg.B + 2 ^ 16 * (if s.cfg.kind = .md then 1 else 0)
        + 2 ^ 17 * (policyCode s.cfg.inEndian).toNat + 2 ^ 19 * (policyCode s.cfg.bufEndian).toNat
        + 2 ^ 21 * (policyCode s.cfg.digestEndian).toNat + 2 ^ 24 * s.cfg.digestBits
        + 2 ^ 40 * (if s.cfg.kind = .md then 0 else s.cfg.S) + 2 ^ 48 * (s.cfg.tsW / 8)

/-- R34, R35, R36: BITS_USED reads FILLED, CAPACITY reads C, ERR_CAUSE reads its four bits below zeros, and the chunks
TOTAL_SEEN_k are the digits of TOTAL_SEEN to the base 2^64, all of them; each read writes nothing but the response. -/
def Obligations.CounterRegisters : Prop :=
  ∀ s : State, Inv s →
    (∃ v, exec (.readReg .bitsUsed) s = .next { s with rsp := some ⟨0#4, .value v⟩ } ∧ v.toNat = s.filled) ∧
    (∃ v, exec (.readReg .capacity) s = .next { s with rsp := some ⟨0#4, .value v⟩ } ∧ v.toNat = s.cfg.C) ∧
    (∃ v, exec (.readReg .errCause) s = .next { s with rsp := some ⟨0#4, .value v⟩ } ∧ v.toNat = s.errCause.toNat) ∧
    (∀ k < s.cfg.tsW / 64, ∃ v,
      exec (.readReg (.totalSeen k)) s = .next { s with rsp := some ⟨0#4, .value v⟩ } ∧
      v.toNat = s.totalSeen / 2 ^ (64 * k) % 2 ^ 64) ∧
    s.totalSeen = ((List.range (s.cfg.tsW / 64)).map fun k => (totalSeenChunk s k).toNat * 2 ^ (64 * k)).sum

/-- R225, R226, R227: GET_BLOCK completes and returns B words of W bits whose stream bits below FILLED are the last
FILLED bits of the message; it writes no state of the spec's but the response. -/
def Obligations.GetBlockReturnsTheValidBits : Prop :=
  ∀ (s : State) (m : List Bool), Inv s → Holds s m →
    ∃ t ws, exec .getBlock s = .next t ∧ t = { s with rsp := some ⟨0#4, .block ws⟩, draws := t.draws } ∧
      Word.Shape s.cfg.W s.cfg.B ws ∧
      ∀ p < s.filled, streamBit s.cfg.bufEndian s.cfg.W ws p = m.getD (s.totalSeen - s.filled + p) false ∧
        streamBit s.cfg.bufEndian s.cfg.W ws p = streamBit s.cfg.bufEndian s.cfg.W s.buf p

/-- R228: CLEAR_ERR clears ERR and ERR_CAUSE, writes nothing else, and answers OK with no data. -/
def Obligations.ClearErrClearsTheErrorOnly : Prop :=
  ∀ s : State, exec .clearErr s = .next { s with err := false, errCause := 0#4, rsp := some ⟨0#4, .empty⟩ }

/-! ### Errors, resets and the whole machine -/

/-- R241, R242, R243: a command that raises an error sets ERR, records the code in ERR_CAUSE, answers that code with no
data, and changes no other state. -/
def Obligations.ErrorsArePrecise : Prop :=
  ∀ (s t : State) (c : Command) (r : Response), runCommand c s = .next t → t.rsp = some r → r.status ≠ 0#4 →
    t = { s with err := true, errCause := r.status, rsp := some ⟨r.status, .empty⟩ }

/-- R230: only CLEAR_ERR and RESET clear ERR; another command that succeeds leaves ERR and ERR_CAUSE as they were, and
one that fails sets them. -/
def Obligations.ErrIsSticky : Prop :=
  ∀ (s : State) (i : Instr), Inv s → i.wf s.cfg = true →
    ∃ t r, exec i s = .next t ∧ t.rsp = some r ∧
      (r.status ≠ 0#4 → t.err = true ∧ t.errCause = r.status) ∧
      (r.status = 0#4 → i ≠ .reset → i ≠ .clearErr → t.err = s.err ∧ t.errCause = s.errCause) ∧
      (i = .reset ∨ i = .clearErr → t.err = false ∧ t.errCause = 0#4)

/-- R230, R251: an error that is pending blocks nothing: whatever ERR and ERR_CAUSE hold, every command leaves the same
accumulation state, and every one but READ_REG of STATUS and of ERR_CAUSE, which show the error, answers the same. -/
def Obligations.PendingErrorBlocksNothing : Prop :=
  ∀ (s : State) (i : Instr) (e : Bool) (k : BitVec 4), Inv s → i.wf s.cfg = true →
    ∃ t u, exec i s = .next t ∧ exec i { s with err := e, errCause := k } = .next u ∧
      (i ≠ .readReg .status → i ≠ .readReg .errCause → u.rsp = t.rsp) ∧
      u.filled = t.filled ∧ u.totalSeen = t.totalSeen ∧ u.con = t.con ∧ validBits u = validBits t

/-- R42: which command writes which state, when it succeeds and when it raises an error. A PROCESS
writes the construction state only if a flush occurs, and then sets ABSORBING. The clauses on `draws` (log 7), on the
field of the other KIND (log 19) and on the host's own fields (log 10, log 20) are the model's. -/
def Obligations.CommandsWriteOnlyTheirState : Prop :=
  ∀ (s : State) (i : Instr), Inv s → i.wf s.cfg = true →
    ∃ t r, exec i s = .next t ∧ t.rsp = some r ∧ SameHost s t ∧
      (r.status = 0#4 →
        match i with
        | .processWord _ _ | .processBlock _ _ =>
          t.err = s.err ∧ t.errCause = s.errCause ∧ s.totalSeen < t.totalSeen ∧
          (s.filled + (t.totalSeen - s.totalSeen) < s.cfg.C → t.con = s.con) ∧
          (s.cfg.C ≤ s.filled + (t.totalSeen - s.totalSeen) → t.con.phase = phaseAbsorbing) ∧
          (s.cfg.kind = .sponge → t.con.mds = s.con.mds) ∧ (s.cfg.kind = .md → t.con.sw = s.con.sw)
        | .result => SameArch s t ∧ t.draws = s.draws
        | .readReg _ => SameArch s t ∧ t.draws = s.draws
        | .getBlock => SameArch s t
        | .clearErr =>
          SameArch s { t with err := s.err, errCause := s.errCause } ∧ t.err = false ∧ t.errCause = 0#4 ∧
          t.draws = s.draws
        | .reset =>
          t.buf = s.buf ∧ t.filled = 0 ∧ t.totalSeen = 0 ∧ t.con.phase = phaseReady ∧ t.err = false ∧
          t.errCause = 0#4 ∧ t.draws = s.draws ∧
          (s.cfg.kind = .sponge → t.con.sw = s.cfg.iv ∧ t.con.mds = s.con.mds) ∧
          (s.cfg.kind = .md → t.con.mds = s.cfg.mdIv ∧ t.con.sw = s.con.sw)) ∧
      (r.status ≠ 0#4 → SameArch s { t with err := s.err, errCause := s.errCause } ∧ t.err = true ∧
        t.errCause = r.status ∧ t.draws = s.draws)

/-- R160: RESET writes every flag's reset value, in every state; BUF is not written. That the field of the other KIND
(log 19) and the host's own fields (log 10, log 20) stay is the model's. -/
def Obligations.ResetCommandLeavesTheResetValues : Prop :=
  ∀ s : State, ∃ t, exec .reset s = .next t ∧ respondedOk t ∧ t.filled = 0 ∧ t.totalSeen = 0 ∧
    (s.cfg.kind = .sponge → t.con = { s.con with sw := s.cfg.iv, phase := 0#2 }) ∧
    (s.cfg.kind = .md → t.con = { s.con with mds := s.cfg.mdIv, phase := 0#2 }) ∧
    t.err = false ∧ t.errCause = 0#4 ∧ t.buf = s.buf ∧ SameHost s t

/-- R270, R161: `rst` has RESET's effect on the state, offers no response and leaves the channel ready; BUF is any value.
Three points are the model's: that each bit of BUF is then the free value of its own number (log 7, log 9), and that the
responses already taken stay on record (log 20). -/
def Obligations.HardwareResetHasTheEffectOfReset : Prop :=
  ∀ (s : State) (rest : List HostInput), s.inputs = .rst :: rest →
    ∃ t u, step s = .next t ∧ exec .reset s = .next u ∧
      t.filled = u.filled ∧ t.totalSeen = u.totalSeen ∧ t.con = u.con ∧ t.err = u.err ∧ t.errCause = u.errCause ∧
      t.rsp = none ∧ cmdReady t = true ∧ t.delivered = s.delivered ∧ t.inputs = rest ∧
      (s.cfg.Valid → Word.Shape s.cfg.W s.cfg.B s.buf →
        ∀ p < s.cfg.C, streamBit s.cfg.bufEndian s.cfg.W t.buf p = Config.freeBit (s.draws + p))

/-- R271, R32: STATUS reads 0x05 (SPONGE) or 0x45 (MD) after a reset, and ERR_CAUSE, BITS_USED and TOTAL_SEEN_k read 0;
CAPACITY and CONFIG read what they read before. -/
def Obligations.RegistersAfterReset : Prop :=
  ∀ s t : State, s.cfg.Valid → (exec .reset s = .next t ∨ t = hardwareReset s) →
    regValue t .status = (match s.cfg.kind with | .sponge => 0x05#64 | .md => 0x45#64) ∧
    regValue t .errCause = 0#64 ∧ regValue t .bitsUsed = 0#64 ∧ (∀ k, regValue t (.totalSeen k) = 0#64) ∧
    regValue t .capacity = regValue s .capacity ∧ regValue t .config = regValue s .config

/-- R272: a reset that comes after a command has run leaves the same state as the reset alone, but for BUF, which is
any value either way (and the model's count of free values). -/
def Obligations.ResetForgetsTheCommandBeforeIt : Prop :=
  ∀ (s : State) (c : Command), Inv s → Word.Shape s.cfg.W s.cfg.B c.payload →
    ∃ t, runCommand c s = .next t ∧
      { hardwareReset t with buf := s.buf, draws := s.draws } = { hardwareReset s with buf := s.buf, draws := s.draws }

/-- R105, R184, R226: no command's effect depends on a stale bit. From two states that differ in stale bits only, a
command leads to two states that do, with the same response; the blocks GET_BLOCK returns agree on the valid bits. -/
def Obligations.StaleBitsAffectNothing : Prop :=
  ∀ (s s' : State) (i : Instr), Inv s → Inv s' → SameButStale s s' → i.wf s.cfg = true →
    ∃ t t', exec i s = .next t ∧ exec i s' = .next t' ∧
      SameButStale { t with rsp := none } { t' with rsp := none } ∧
      (i ≠ .getBlock → t'.rsp = t.rsp) ∧
      (i = .getBlock → ∃ ws ws', t.rsp = some ⟨0#4, .block ws⟩ ∧ t'.rsp = some ⟨0#4, .block ws'⟩ ∧
        ∀ p < s.filled, streamBit s.cfg.bufEndian s.cfg.W ws p = streamBit s.cfg.bufEndian s.cfg.W ws' p)

/-! ### A flush, by the command that makes it -/

/-- R150, R170, R190: a submission that fills the buffer exactly flushes it in the same command. On the sponge path the
block is XORed into the rate and the state permuted; on the MD path it is compressed into MDS. PHASE becomes ABSORBING
and the buffer is empty. That the field of the other KIND stays is the model's (log 19). -/
def Obligations.ExactFillAbsorbsOneBlock : Prop :=
  ∀ (s : State) (i : Instr) (blk : List Word), Inv s → i.wf s.cfg = true → isSubmission s.cfg i = true →
    s.totalSeen + (submittedBits s.cfg i).length ≤ 2 ^ s.cfg.tsW - 1 → Word.Shape s.cfg.W s.cfg.B blk →
    streamBits s.cfg.bufEndian s.cfg.W blk s.cfg.C = validBits s ++ submittedBits s.cfg i →
    ∃ t, exec i s = .next t ∧ respondedOk t ∧ t.filled = 0 ∧
      (s.cfg.kind = .sponge → t.con = { s.con with sw := permute s.cfg (xorInto s.con.sw blk), phase := 1#2 }) ∧
      (s.cfg.kind = .md → t.con = { s.con with mds := mdCompress s.cfg s.con.mds blk, phase := 1#2 })
end

