-- ==== Sys2Proof/Laws/Config.lean ====
section
/-! SUPPORT. What the constraints of R8 give at once. -/

namespace Sys2Proof.Config.Valid

variable {cfg : Config}

theorem W_pos (h : cfg.Valid) : 0 < cfg.W := by have := h.W_min; omega

theorem C_pos (h : cfg.Valid) : 0 < cfg.C := Nat.mul_pos h.B_min h.W_pos

theorem W_le_C (h : cfg.Valid) : cfg.W ≤ cfg.C := Nat.le_mul_of_pos_left cfg.W h.B_min

theorem tsW_pos (h : cfg.Valid) : 0 < cfg.tsW := by have := h.tsW_min; omega

end Sys2Proof.Config.Valid
end

