-- ==== Sys2Proof/Laws/Word.lean ====
section
/-! SUPPORT. Small facts about words and arrays of words. -/

namespace Sys2Proof.Word

@[simp] theorem length_ofNat (W n : Nat) : (ofNat W n).length = W := by simp [ofNat]

@[simp] theorem length_zero (W : Nat) : (zero W).length = W := by simp [zero]

@[simp] theorem length_fit (W : Nat) (w : Word) : (fit W w).length = W := by simp [fit]

@[simp] theorem length_zeros (W n : Nat) : (zeros W n).length = n := by simp [zeros]

@[simp] theorem length_fitAll (W n : Nat) (ws : List Word) : (fitAll W n ws).length = n := by simp [fitAll]

theorem length_xor (a b : Word) : (xor a b).length = min a.length b.length := by simp [xor]

theorem bit_ofNat (W n i : Nat) : bit (ofNat W n) i = (decide (i < W) && n.testBit i) := by
  by_cases h : i < W <;> simp [bit, ofNat, List.getD, h]

@[simp] theorem bit_zero (W i : Nat) : bit (zero W) i = false := by
  by_cases h : i < W <;> simp [bit, zero, List.getD, h]

theorem bit_eq_getElem {w : Word} {i : Nat} (h : i < w.length) : bit w i = w[i] := by
  simp [bit, List.getD, h]

theorem bit_of_length_le {w : Word} {i : Nat} (h : w.length ≤ i) : bit w i = false := by
  simp [bit, List.getD, h]

/-- Two words of one width are equal when their bits are. -/
theorem ext_bit {a b : Word} (hl : a.length = b.length) (h : ∀ i < a.length, bit a i = bit b i) : a = b := by
  refine List.ext_getElem hl fun i h₁ h₂ => ?_
  rw [← bit_eq_getElem h₁, ← bit_eq_getElem h₂]
  exact h i h₁

/-- Fitting a word to the width it has changes nothing. -/
theorem fit_eq_self {W : Nat} {w : Word} (h : w.length = W) : fit W w = w := by
  refine ext_bit (by simp [h]) fun i hi => ?_
  simp at hi
  simp [bit, fit, List.getD, hi]

theorem bit_xor {a b : Word} (h : a.length = b.length) (i : Nat) : bit (xor a b) i = Bool.xor (bit a i) (bit b i) := by
  by_cases hi : i < a.length
  · have hb : i < b.length := h ▸ hi
    simp [bit, xor, List.getD, hi, hb]
  · have hb : ¬ i < b.length := h ▸ hi
    rw [bit_of_length_le (w := a) (by omega), bit_of_length_le (w := b) (by omega), bit_of_length_le]
    · rfl
    · rw [length_xor]; omega

/-- The bits of a word's value are the word's bits (R11). -/
theorem testBit_toNat (w : Word) (i : Nat) : w.toNat.testBit i = w.bit i := by
  induction w generalizing i with
  | nil => simp [toNat, bit]
  | cons b w ih =>
    cases i with
    | zero => cases b <;> simp [toNat, bit, Nat.testBit_zero]
    | succ i =>
      rw [Nat.testBit_succ, show (toNat (b :: w)) / 2 = toNat w by cases b <;> simp [toNat]; omega, ih]
      simp [bit]

/-- A value that fits a word is the word's value (R11). -/
theorem toNat_ofNat (W n : Nat) (h : n < 2 ^ W) : (ofNat W n).toNat = n := by
  apply Nat.eq_of_testBit_eq
  intro i
  rw [testBit_toNat, bit_ofNat]
  by_cases hi : i < W
  · simp [hi]
  · simp [hi, Nat.testBit_lt_two_pow (Nat.lt_of_lt_of_le h (Nat.pow_le_pow_right (by decide) (Nat.le_of_not_lt hi)))]

/-! ### Shapes -/

theorem Shape.length {W n : Nat} {ws : List Word} (h : Shape W n ws) : ws.length = n := h.1

theorem Shape.width {W n : Nat} {ws : List Word} (h : Shape W n ws) {i : Nat} (hi : i < n) :
    (ws.getD i []).length = W := by
  have hi' : i < ws.length := h.1 ▸ hi
  simpa [List.getD, hi'] using h.2 _ (List.getElem_mem hi')

theorem shape_zeros (W n : Nat) : Shape W n (zeros W n) := by
  refine ⟨by simp, fun w hw => ?_⟩
  rw [List.eq_of_mem_replicate hw]
  simp

theorem shape_fitAll (W n : Nat) (ws : List Word) : Shape W n (fitAll W n ws) := by
  refine ⟨by simp, fun w hw => ?_⟩
  obtain ⟨i, -, rfl⟩ := List.mem_map.1 hw
  simp

/-- Fitting an array to the shape it has changes nothing. -/
theorem fitAll_eq_self {W n : Nat} {ws : List Word} (h : Shape W n ws) : fitAll W n ws = ws := by
  refine List.ext_getElem (by simp [h.1]) fun i h₁ h₂ => ?_
  simp only [fitAll, List.getElem_map, List.getElem_range, List.getD_eq_getElem?_getD, List.getElem?_eq_getElem h₂,
    Option.getD_some]
  exact fit_eq_self (h.2 _ (List.getElem_mem h₂))

theorem Shape.take {W n m : Nat} {ws : List Word} (h : Shape W n ws) (hm : m ≤ n) : Shape W m (ws.take m) :=
  ⟨by simp [h.1, hm], fun w hw => h.2 w (List.mem_of_mem_take hw)⟩

theorem Shape.append {W n m : Nat} {a b : List Word} (ha : Shape W n a) (hb : Shape W m b) :
    Shape W (n + m) (a ++ b) :=
  ⟨by simp [ha.1, hb.1], fun w hw => (List.mem_append.1 hw).elim (ha.2 w) (hb.2 w)⟩

theorem shape_singleton {W : Nat} {v : Word} (h : v.length = W) : Shape W 1 [v] :=
  ⟨rfl, fun w hw => by rw [List.mem_singleton.1 hw, h]⟩

end Sys2Proof.Word
end

