-- ==== Sys2Proof/Laws/Stream.lean ====
section
/-! SUPPORT. The stream mapping is a bijection (R52), and what writing a range of stream bits does to an array (R120,
R121, R128). -/

namespace Sys2Proof.Machine

/-! ### pos -/

theorem pos_lt (pol : Policy) {W j : Nat} (hW : 8 ∣ W) (hj : j < W) : pos pol W j < W := by
  obtain ⟨m, rfl⟩ := hW
  rcases pol with ⟨_ | _, _ | _⟩ <;> simp only [pos] <;> omega

/-- Applying the mapping of a policy twice gives the stream index back. -/
theorem pos_pos (pol : Policy) {W j : Nat} (hW : 8 ∣ W) (hj : j < W) : pos pol W (pos pol W j) = j := by
  obtain ⟨m, rfl⟩ := hW
  rcases pol with ⟨_ | _, _ | _⟩ <;> simp only [pos] <;> omega

theorem pos_inj (pol : Policy) {W i j : Nat} (hW : 8 ∣ W) (hi : i < W) (hj : j < W)
    (h : pos pol W i = pos pol W j) : i = j := by
  rw [← pos_pos pol hW hi, ← pos_pos pol hW hj, h]

/-! ### Reading and writing one stream bit -/

theorem shape_setStreamBit {pol : Policy} {W n : Nat} {arr : List Word} (h : Word.Shape W n arr) (p : Nat) (b : Bool) :
    Word.Shape W n (setStreamBit pol W arr p b) := by
  refine ⟨by simp [setStreamBit, h.1], fun w hw => ?_⟩
  obtain ⟨i, hi, rfl⟩ := List.getElem_of_mem hw
  have hi' : i < arr.length := by simpa [setStreamBit] using hi
  have := h.2 _ (List.getElem_mem hi')
  simp only [setStreamBit, List.getElem_modify]
  split <;> simp [this]

/-- A write of one stream bit changes that bit and no other (R53). -/
theorem streamBit_setStreamBit {pol : Policy} {W n : Nat} {arr : List Word} (hW : 8 ∣ W) (h : Word.Shape W n arr)
    {p : Nat} (hp : p < n * W) (b : Bool) (q : Nat) :
    streamBit pol W (setStreamBit pol W arr p b) q = if q = p then b else streamBit pol W arr q := by
  have hW0 : 0 < W := by
    rcases Nat.eq_zero_or_pos W with h0 | h0
    · simp [h0] at hp
    · exact h0
  have hpw : p / W < n := (Nat.div_lt_iff_lt_mul hW0).2 hp
  have hpl : p / W < arr.length := h.1 ▸ hpw
  have hlen : arr[p / W].length = W := h.2 _ (List.getElem_mem hpl)
  have hpos := pos_lt pol hW (Nat.mod_lt p hW0)
  by_cases hw : q / W = p / W
  · have hq : streamBit pol W (setStreamBit pol W arr p b) q
        = Word.bit (arr[p / W].set (pos pol W (p % W)) b) (pos pol W (q % W)) := by
      simp [streamBit, setStreamBit, hw, hpl]
    have hq' : streamBit pol W arr q = Word.bit arr[p / W] (pos pol W (q % W)) := by
      simp [streamBit, hw, hpl]
    rw [hq, hq']
    by_cases hqp : q = p
    · subst hqp
      simp [Word.bit, List.getD, hlen, hpos]
    · have hmod : q % W ≠ p % W := by
        intro hm
        exact hqp (by rw [← Nat.div_add_mod q W, ← Nat.div_add_mod p W, hw, hm])
      have hne : pos pol W (p % W) ≠ pos pol W (q % W) := fun he =>
        hmod (pos_inj pol hW (Nat.mod_lt q hW0) (Nat.mod_lt p hW0) he.symm)
      simp [Word.bit, List.getD, hqp, List.getElem?_set_ne hne]
  · have hqp : q ≠ p := fun he => hw (by rw [he])
    have hw' : p / W ≠ q / W := fun he => hw he.symm
    simp [streamBit, setStreamBit, hqp, hw']

/-! ### Writing a range -/

@[simp] theorem writeStream_zero (pol : Policy) (W : Nat) (arr : List Word) (doff : Nat) (f : Nat → Bool) :
    writeStream pol W arr doff f 0 = arr := rfl

theorem shape_writeStream {pol : Policy} {W n : Nat} {arr : List Word} (h : Word.Shape W n arr) (doff : Nat)
    (f : Nat → Bool) (m : Nat) : Word.Shape W n (writeStream pol W arr doff f m) := by
  induction m with
  | zero => exact h
  | succ m ih => exact shape_setStreamBit ih _ _

@[simp] theorem length_writeStream (pol : Policy) (W : Nat) (arr : List Word) (doff : Nat) (f : Nat → Bool) (m : Nat) :
    (writeStream pol W arr doff f m).length = arr.length := by
  induction m with
  | zero => rfl
  | succ m ih => simpa [writeStream, setStreamBit] using ih

/-- A write of a range changes exactly the positions of the range (R121). -/
theorem streamBit_writeStream {pol : Policy} {W n : Nat} {arr : List Word} (hW : 8 ∣ W) (h : Word.Shape W n arr)
    (doff : Nat) (f : Nat → Bool) {m : Nat} (hm : doff + m ≤ n * W) (q : Nat) :
    streamBit pol W (writeStream pol W arr doff f m) q
      = if doff ≤ q ∧ q < doff + m then f (q - doff) else streamBit pol W arr q := by
  induction m with
  | zero =>
    have : ¬ (doff ≤ q ∧ q < doff + 0) := by omega
    rw [if_neg this, writeStream_zero]
  | succ m ih =>
    rw [writeStream, streamBit_setStreamBit hW (shape_writeStream h _ _ _) (by omega), ih (by omega)]
    by_cases hq : q = doff + m
    · subst hq
      simp
    · by_cases hr : doff ≤ q ∧ q < doff + m
      · have : doff ≤ q ∧ q < doff + (m + 1) := by omega
        simp [hq, hr, this]
      · have : ¬ (doff ≤ q ∧ q < doff + (m + 1)) := by omega
        rw [if_neg hq, if_neg hr, if_neg this]

/-- The write of a range depends only on the bits written. -/
theorem writeStream_congr {pol : Policy} {W : Nat} {arr : List Word} {doff : Nat} {f g : Nat → Bool} {m : Nat}
    (h : ∀ k < m, f k = g k) : writeStream pol W arr doff f m = writeStream pol W arr doff g m := by
  induction m with
  | zero => rfl
  | succ m ih => rw [writeStream, writeStream, ih fun k hk => h k (by omega), h m (by omega)]

/-- Two writes of adjacent ranges are one write of the joined range (R128). -/
theorem writeStream_add (pol : Policy) (W : Nat) (arr : List Word) (doff : Nat) (f : Nat → Bool) (m k : Nat) :
    writeStream pol W (writeStream pol W arr doff f m) (doff + m) (fun i => f (m + i)) k
      = writeStream pol W arr doff f (m + k) := by
  induction k with
  | zero => rfl
  | succ k ih => rw [← Nat.add_assoc m k 1, writeStream, writeStream, ih, Nat.add_assoc doff m k]

/-! ### Arrays as streams -/

/-- Two arrays of one shape with the same stream bits are equal. -/
theorem ext_streamBit {pol : Policy} {W n : Nat} {a b : List Word} (hW : 8 ∣ W) (ha : Word.Shape W n a)
    (hb : Word.Shape W n b) (h : ∀ p < n * W, streamBit pol W a p = streamBit pol W b p) : a = b := by
  refine List.ext_getElem (ha.1.trans hb.1.symm) fun w h₁ h₂ => ?_
  have hla := ha.2 _ (List.getElem_mem h₁)
  have hlb := hb.2 _ (List.getElem_mem h₂)
  refine Word.ext_bit (hla.trans hlb.symm) fun i hi => ?_
  rw [hla] at hi
  have hW0 : 0 < W := by omega
  have hj := pos_lt pol hW hi
  have hwn : w < n := ha.1 ▸ h₁
  have hp : w * W + pos pol W i < n * W := by
    calc w * W + pos pol W i < w * W + W := by omega
      _ = (w + 1) * W := by rw [Nat.succ_mul]
      _ ≤ n * W := Nat.mul_le_mul_right W hwn
  have := h _ hp
  have hdiv : (w * W + pos pol W i) / W = w := by
    rw [Nat.mul_comm, Nat.mul_add_div hW0, Nat.div_eq_of_lt hj, Nat.add_zero]
  have hmod : (w * W + pos pol W i) % W = pos pol W i := by
    rw [Nat.mul_comm, Nat.mul_add_mod, Nat.mod_eq_of_lt hj]
  simpa [streamBit, hdiv, hmod, pos_pos pol hW hi, List.getD, h₁, h₂] using this

@[simp] theorem length_streamBits (pol : Policy) (W : Nat) (arr : List Word) (n : Nat) :
    (streamBits pol W arr n).length = n := by simp [streamBits]

theorem getElem_streamBits {pol : Policy} {W : Nat} {arr : List Word} {n i : Nat}
    (h : i < (streamBits pol W arr n).length) : (streamBits pol W arr n)[i] = streamBit pol W arr i := by
  simp [streamBits]

/-- The first `n` stream bits of two arrays are equal when the arrays agree on these positions. -/
theorem streamBits_congr {pol : Policy} {W n : Nat} {a b : List Word}
    (h : ∀ p < n, streamBit pol W a p = streamBit pol W b p) : streamBits pol W a n = streamBits pol W b n :=
  List.map_congr_left fun p hp => h p (List.mem_range.1 hp)

theorem streamBit_eq_of_streamBits_eq {pol : Policy} {W n : Nat} {a b : List Word}
    (h : streamBits pol W a n = streamBits pol W b n) {p : Nat} (hp : p < n) :
    streamBit pol W a p = streamBit pol W b p := by
  have h₁ : p < (streamBits pol W a n).length := by simpa using hp
  have h₂ : p < (streamBits pol W b n).length := by simpa using hp
  rw [← getElem_streamBits h₁, ← getElem_streamBits h₂]
  simp only [h]

/-- The stream bits of a range, as a slice. -/
theorem drop_streamBits (pol : Policy) (W : Nat) (arr : List Word) (k n : Nat) :
    (streamBits pol W arr n).drop k = (List.range (n - k)).map fun i => streamBit pol W arr (k + i) := by
  refine List.ext_getElem (by simp) fun i h₁ h₂ => ?_
  simp [streamBits]

theorem take_streamBits (pol : Policy) (W : Nat) (arr : List Word) {k n : Nat} (h : k ≤ n) :
    (streamBits pol W arr n).take k = streamBits pol W arr k := by
  refine List.ext_getElem (by simp [h]) fun i h₁ h₂ => ?_
  simp [streamBits]

/-- The stream bit that a bit of a word is (R53). -/
theorem streamBit_word {pol : Policy} {W i : Nat} {arr : List Word} (hW : 8 ∣ W) (hi : i < W) (w : Nat) :
   streamBit pol W arr (w * W + pos pol W i) = Word.bit (arr.getD w []) i := by
  have hW0 : 0 < W := by omega
  have hj := pos_lt pol hW hi
  have hdiv : (w * W + pos pol W i) / W = w := by
    rw [Nat.mul_comm, Nat.mul_add_div hW0, Nat.div_eq_of_lt hj, Nat.add_zero]
  have hmod : (w * W + pos pol W i) % W = pos pol W i := by
    rw [Nat.mul_comm, Nat.mul_add_mod, Nat.mod_eq_of_lt hj]
  rw [streamBit, hdiv, hmod, pos_pos pol hW hi]

/-- Every stream bit of an array of zeros is 0. -/
@[simp] theorem streamBit_zeros (pol : Policy) (W n p : Nat) : streamBit pol W (Word.zeros W n) p = false := by
  simp only [streamBit, Word.zeros, List.getD, List.getElem?_replicate]
  split
  · exact Word.bit_zero W _
  · rfl

/-! ### INJECT -/

/-- Inside its precondition INJECT answers the destination with exactly the copied range changed (R120, R121). -/
theorem inject_ok {src : List Word} {spol : Policy} {Ws n : Nat} {dst : List Word} {dpol : Policy} {Wd doff soff : Nat}
    (hs : soff + n ≤ src.length * Ws) (hd : doff + n ≤ dst.length * Wd) :
    inject src spol Ws n dst dpol Wd doff soff
      = .ok (writeStream dpol Wd dst doff (fun k => streamBit spol Ws src (soff + k)) n) := by
  rw [inject, if_pos ⟨hs, hd⟩]

/-- Outside its precondition INJECT is refused (R123). -/
theorem inject_refused {src : List Word} {spol : Policy} {Ws n : Nat} {dst : List Word} {dpol : Policy}
    {Wd doff soff : Nat} (h : ¬ (soff + n ≤ src.length * Ws ∧ doff + n ≤ dst.length * Wd)) :
    inject src spol Ws n dst dpol Wd doff soff = .error .injectOutOfRange := by
  rw [inject, if_neg h]

end Sys2Proof.Machine
end

