-- ==== Sys2Proof/Laws/Message.lean ====
section
/-! SUPPORT. Messages and their blocks: a full buffer is the block of its stream bits, and absorbing a message in two
parts is absorbing it whole (R151, R154). -/

namespace Sys2Proof.Machine

variable {cfg : Config}

theorem shape_blockOfBits (cfg : Config) (bits : List Bool) :
    Word.Shape cfg.W cfg.B (blockOfBits cfg bits) := shape_writeStream (Word.shape_zeros _ _) _ _ _

/-- The stream bits of `blockOfBits`. -/
theorem streamBit_blockOfBits (hc : cfg.Valid) (bits : List Bool) {p : Nat} (hp : p < cfg.C) :
    streamBit cfg.bufEndian cfg.W (blockOfBits cfg bits) p = bits.getD p false := by
  rw [blockOfBits, streamBit_writeStream hc.W_octets (Word.shape_zeros _ _) _ _ (by simp [Config.C])]
  simp [hp]

/-- A block is the block of its own stream bits. -/
theorem blockOfBits_streamBits (hc : cfg.Valid) {blk : List Word} (h : Word.Shape cfg.W cfg.B blk) :
    blockOfBits cfg (streamBits cfg.bufEndian cfg.W blk cfg.C) = blk := by
  refine ext_streamBit (pol := cfg.bufEndian) hc.W_octets (shape_blockOfBits _ _) h fun p hp => ?_
  rw [streamBit_blockOfBits hc _ hp]
  simp [streamBits, List.getD, show p < cfg.C from hp]

/-- The valid bits of the block of a message tail are the tail. -/
theorem streamBits_blockOfBits (hc : cfg.Valid) {bits : List Bool} (h : bits.length ≤ cfg.C) :
    streamBits cfg.bufEndian cfg.W (blockOfBits cfg bits) bits.length = bits := by
  refine List.ext_getElem (by simp) fun i h₁ h₂ => ?_
  rw [getElem_streamBits, streamBit_blockOfBits hc bits (by omega)]
  simp [List.getD, h₂]

/-! ### absorbBlocks -/

/-- The first `k` blocks of a message do not depend on what follows them. -/
theorem absorbBlocks_append (k : Nat) (c : Construction) (m x : List Bool) (h : k * cfg.C ≤ m.length) :
    absorbBlocks cfg k c (m ++ x) = absorbBlocks cfg k c m := by
  induction k generalizing c m with
  | zero => rfl
  | succ k ih =>
    rw [Nat.succ_mul] at h
    rw [absorbBlocks, absorbBlocks, List.take_append_of_le_length (by omega),
      List.drop_append_of_le_length (by omega), ih _ _ (by simp; omega)]

theorem absorbBlocks_add (j k : Nat) (c : Construction) (m : List Bool) :
    absorbBlocks cfg (j + k) c m = absorbBlocks cfg k (absorbBlocks cfg j c m) (m.drop (j * cfg.C)) := by
  induction j generalizing c m with
  | zero => simp [absorbBlocks]
  | succ j ih =>
    rw [Nat.succ_add, absorbBlocks, ih, absorbBlocks, List.drop_drop, Nat.succ_mul, Nat.add_comm (j * cfg.C)]

/-! ### Messages in two parts -/

theorem length_tailBits (cfg : Config) (m : List Bool) : (tailBits cfg m).length = m.length % cfg.C := by
  rw [tailBits, List.length_drop, Nat.mul_comm, ← Nat.mod_eq_sub_mul_div]

theorem length_div_append (hC : 0 < cfg.C) (m x : List Bool) :
    (m ++ x).length / cfg.C = m.length / cfg.C + (tailBits cfg m ++ x).length / cfg.C := by
  rw [List.length_append, List.length_append, length_tailBits]
  conv_lhs => rw [← Nat.div_add_mod m.length cfg.C, Nat.add_assoc, Nat.mul_add_div hC]

/-- The tail of a message in two parts (R151). -/
theorem tailBits_append (hC : 0 < cfg.C) (m x : List Bool) :
    tailBits cfg (m ++ x) = tailBits cfg (tailBits cfg m ++ x) := by
  have hle : m.length / cfg.C * cfg.C ≤ m.length := Nat.div_mul_le_self _ _
  have hdrop : (m ++ x).drop (m.length / cfg.C * cfg.C) = tailBits cfg m ++ x :=
    List.drop_append_of_le_length hle
  rw [tailBits, length_div_append hC, Nat.add_mul, ← List.drop_drop, hdrop]
  rfl

/-- Absorbing a message in two parts is absorbing it whole (R154). -/
theorem absorbBits_append (hC : 0 < cfg.C) (c : Construction) (m x : List Bool) :
    absorbBits cfg c (m ++ x) = absorbBits cfg (absorbBits cfg c m) (tailBits cfg m ++ x) := by
  have hle : m.length / cfg.C * cfg.C ≤ m.length := Nat.div_mul_le_self _ _
  have hdrop : (m ++ x).drop (m.length / cfg.C * cfg.C) = tailBits cfg m ++ x :=
    List.drop_append_of_le_length hle
  rw [absorbBits, length_div_append hC, absorbBlocks_add, hdrop, absorbBlocks_append _ _ _ _ hle]
  rfl

/-- A message shorter than a block absorbs nothing and is its own tail. -/
theorem absorbBits_of_lt {m : List Bool} (h : m.length < cfg.C) (c : Construction) : absorbBits cfg c m = c := by
  rw [absorbBits, Nat.div_eq_of_lt h, absorbBlocks]

theorem tailBits_of_lt {m : List Bool} (h : m.length < cfg.C) : tailBits cfg m = m := by
  rw [tailBits, Nat.div_eq_of_lt h, Nat.zero_mul, List.drop_zero]

/-- A message of one block absorbs that block and has no tail. -/
theorem absorbBits_of_eq (hC : 0 < cfg.C) {m : List Bool} (h : m.length = cfg.C) (c : Construction) :
    absorbBits cfg c m = absorbLive cfg c (blockOfBits cfg m) := by
  rw [absorbBits, h, Nat.div_self hC, absorbBlocks, absorbBlocks, ← h, List.take_length]

theorem tailBits_of_eq (hC : 0 < cfg.C) {m : List Bool} (h : m.length = cfg.C) : tailBits cfg m = [] := by
  rw [tailBits, h, Nat.div_self hC, Nat.one_mul, ← h, List.drop_length]

theorem tailBits_tailBits (hC : 0 < cfg.C) (m : List Bool) : tailBits cfg (tailBits cfg m) = tailBits cfg m :=
  tailBits_of_lt (by rw [length_tailBits]; exact Nat.mod_lt _ hC)

end Sys2Proof.Machine
end

