-- ==== Sys2Proof/Laws/State.lean ====
section
/-! SUPPORT. One lemma per field per update of the state, so that no later proof unfolds a record update. -/

namespace Sys2Proof.Machine

variable (s : State) (st : BitVec 4) (d : RspData) (c : Cause) (n : Nat)

/-! ### respond -/
@[simp] theorem respond_cfg : (respond st d s).cfg = s.cfg := rfl
@[simp] theorem respond_buf : (respond st d s).buf = s.buf := rfl
@[simp] theorem respond_filled : (respond st d s).filled = s.filled := rfl
@[simp] theorem respond_totalSeen : (respond st d s).totalSeen = s.totalSeen := rfl
@[simp] theorem respond_con : (respond st d s).con = s.con := rfl
@[simp] theorem respond_err : (respond st d s).err = s.err := rfl
@[simp] theorem respond_errCause : (respond st d s).errCause = s.errCause := rfl
@[simp] theorem respond_rsp : (respond st d s).rsp = some ⟨st, d⟩ := rfl
@[simp] theorem respond_inputs : (respond st d s).inputs = s.inputs := rfl
@[simp] theorem respond_delivered : (respond st d s).delivered = s.delivered := rfl
@[simp] theorem respond_draws : (respond st d s).draws = s.draws := rfl

/-! ### respondOk -/
@[simp] theorem respondOk_cfg : (respondOk d s).cfg = s.cfg := rfl
@[simp] theorem respondOk_buf : (respondOk d s).buf = s.buf := rfl
@[simp] theorem respondOk_filled : (respondOk d s).filled = s.filled := rfl
@[simp] theorem respondOk_totalSeen : (respondOk d s).totalSeen = s.totalSeen := rfl
@[simp] theorem respondOk_con : (respondOk d s).con = s.con := rfl
@[simp] theorem respondOk_err : (respondOk d s).err = s.err := rfl
@[simp] theorem respondOk_errCause : (respondOk d s).errCause = s.errCause := rfl
@[simp] theorem respondOk_rsp : (respondOk d s).rsp = some ⟨statusOk, d⟩ := rfl
@[simp] theorem respondOk_inputs : (respondOk d s).inputs = s.inputs := rfl
@[simp] theorem respondOk_delivered : (respondOk d s).delivered = s.delivered := rfl
@[simp] theorem respondOk_draws : (respondOk d s).draws = s.draws := rfl

/-! ### raiseError -/
@[simp] theorem raiseError_cfg : (raiseError c s).cfg = s.cfg := rfl
@[simp] theorem raiseError_buf : (raiseError c s).buf = s.buf := rfl
@[simp] theorem raiseError_filled : (raiseError c s).filled = s.filled := rfl
@[simp] theorem raiseError_totalSeen : (raiseError c s).totalSeen = s.totalSeen := rfl
@[simp] theorem raiseError_con : (raiseError c s).con = s.con := rfl
@[simp] theorem raiseError_err : (raiseError c s).err = true := rfl
@[simp] theorem raiseError_errCause : (raiseError c s).errCause = causeCode c := rfl
@[simp] theorem raiseError_rsp : (raiseError c s).rsp = some ⟨causeCode c, .empty⟩ := rfl
@[simp] theorem raiseError_inputs : (raiseError c s).inputs = s.inputs := rfl
@[simp] theorem raiseError_delivered : (raiseError c s).delivered = s.delivered := rfl
@[simp] theorem raiseError_draws : (raiseError c s).draws = s.draws := rfl

/-! ### acknowledgeError -/
@[simp] theorem acknowledgeError_cfg : (acknowledgeError s).cfg = s.cfg := rfl
@[simp] theorem acknowledgeError_buf : (acknowledgeError s).buf = s.buf := rfl
@[simp] theorem acknowledgeError_filled : (acknowledgeError s).filled = s.filled := rfl
@[simp] theorem acknowledgeError_totalSeen : (acknowledgeError s).totalSeen = s.totalSeen := rfl
@[simp] theorem acknowledgeError_con : (acknowledgeError s).con = s.con := rfl
@[simp] theorem acknowledgeError_err : (acknowledgeError s).err = false := rfl
@[simp] theorem acknowledgeError_errCause : (acknowledgeError s).errCause = statusOk := rfl
@[simp] theorem acknowledgeError_rsp : (acknowledgeError s).rsp = s.rsp := rfl
@[simp] theorem acknowledgeError_inputs : (acknowledgeError s).inputs = s.inputs := rfl
@[simp] theorem acknowledgeError_delivered : (acknowledgeError s).delivered = s.delivered := rfl
@[simp] theorem acknowledgeError_draws : (acknowledgeError s).draws = s.draws := rfl

/-! ### resetAccumulator -/
@[simp] theorem resetAccumulator_cfg : (resetAccumulator s).cfg = s.cfg := rfl
@[simp] theorem resetAccumulator_buf : (resetAccumulator s).buf = s.buf := rfl
@[simp] theorem resetAccumulator_filled : (resetAccumulator s).filled = 0 := rfl
@[simp] theorem resetAccumulator_totalSeen : (resetAccumulator s).totalSeen = 0 := rfl
@[simp] theorem resetAccumulator_con : (resetAccumulator s).con = resetConstruction s.cfg s.con := rfl
@[simp] theorem resetAccumulator_err : (resetAccumulator s).err = false := rfl
@[simp] theorem resetAccumulator_errCause : (resetAccumulator s).errCause = statusOk := rfl
@[simp] theorem resetAccumulator_rsp : (resetAccumulator s).rsp = s.rsp := rfl
@[simp] theorem resetAccumulator_inputs : (resetAccumulator s).inputs = s.inputs := rfl
@[simp] theorem resetAccumulator_delivered : (resetAccumulator s).delivered = s.delivered := rfl
@[simp] theorem resetAccumulator_draws : (resetAccumulator s).draws = s.draws := rfl

/-! ### spendDraws -/
@[simp] theorem spendDraws_cfg : (spendDraws s).cfg = s.cfg := rfl
@[simp] theorem spendDraws_buf : (spendDraws s).buf = s.buf := rfl
@[simp] theorem spendDraws_filled : (spendDraws s).filled = s.filled := rfl
@[simp] theorem spendDraws_totalSeen : (spendDraws s).totalSeen = s.totalSeen := rfl
@[simp] theorem spendDraws_con : (spendDraws s).con = s.con := rfl
@[simp] theorem spendDraws_err : (spendDraws s).err = s.err := rfl
@[simp] theorem spendDraws_errCause : (spendDraws s).errCause = s.errCause := rfl
@[simp] theorem spendDraws_rsp : (spendDraws s).rsp = s.rsp := rfl
@[simp] theorem spendDraws_inputs : (spendDraws s).inputs = s.inputs := rfl
@[simp] theorem spendDraws_delivered : (spendDraws s).delivered = s.delivered := rfl
@[simp] theorem spendDraws_draws : (spendDraws s).draws = s.draws + s.cfg.C := rfl

/-! ### clean, flush, countBits -/
@[simp] theorem clean_cfg : (clean s).cfg = s.cfg := rfl
@[simp] theorem clean_filled : (clean s).filled = 0 := rfl
@[simp] theorem clean_buf : (clean s).buf = s.buf := rfl
@[simp] theorem flush_cfg : (flush s).cfg = s.cfg := rfl
@[simp] theorem flush_buf : (flush s).buf = s.buf := rfl
@[simp] theorem flush_filled : (flush s).filled = 0 := rfl
@[simp] theorem flush_con : (flush s).con = absorbLive s.cfg s.con s.buf := rfl
@[simp] theorem flush_totalSeen : (flush s).totalSeen = s.totalSeen := rfl
@[simp] theorem countBits_cfg : (countBits n s).cfg = s.cfg := rfl
@[simp] theorem countBits_buf : (countBits n s).buf = s.buf := rfl
@[simp] theorem countBits_filled : (countBits n s).filled = s.filled := rfl
@[simp] theorem countBits_con : (countBits n s).con = s.con := rfl
@[simp] theorem countBits_totalSeen : (countBits n s).totalSeen = s.totalSeen + n := rfl
@[simp] theorem countBits_draws : (countBits n s).draws = s.draws := rfl

/-! ### hardwareReset -/
@[simp] theorem hardwareReset_cfg : (hardwareReset s).cfg = s.cfg := rfl
@[simp] theorem hardwareReset_buf : (hardwareReset s).buf = redrawFrom s.cfg s.buf 0 s.draws := rfl
@[simp] theorem hardwareReset_filled : (hardwareReset s).filled = 0 := rfl
@[simp] theorem hardwareReset_totalSeen : (hardwareReset s).totalSeen = 0 := rfl
@[simp] theorem hardwareReset_con : (hardwareReset s).con = resetConstruction s.cfg s.con := rfl
@[simp] theorem hardwareReset_err : (hardwareReset s).err = false := rfl
@[simp] theorem hardwareReset_errCause : (hardwareReset s).errCause = statusOk := rfl
@[simp] theorem hardwareReset_rsp : (hardwareReset s).rsp = none := rfl
@[simp] theorem hardwareReset_inputs : (hardwareReset s).inputs = s.inputs := rfl
@[simp] theorem hardwareReset_delivered : (hardwareReset s).delivered = s.delivered := rfl
@[simp] theorem hardwareReset_draws : (hardwareReset s).draws = s.draws + s.cfg.C := rfl

/-! ### deliver: everything but the two response fields stays -/
@[simp] theorem deliver_cfg : (deliver s).cfg = s.cfg := by unfold deliver; split <;> rfl
@[simp] theorem deliver_buf : (deliver s).buf = s.buf := by unfold deliver; split <;> rfl
@[simp] theorem deliver_filled : (deliver s).filled = s.filled := by unfold deliver; split <;> rfl
@[simp] theorem deliver_totalSeen : (deliver s).totalSeen = s.totalSeen := by unfold deliver; split <;> rfl
@[simp] theorem deliver_con : (deliver s).con = s.con := by unfold deliver; split <;> rfl
@[simp] theorem deliver_err : (deliver s).err = s.err := by unfold deliver; split <;> rfl
@[simp] theorem deliver_errCause : (deliver s).errCause = s.errCause := by unfold deliver; split <;> rfl
@[simp] theorem deliver_inputs : (deliver s).inputs = s.inputs := by unfold deliver; split <;> rfl
@[simp] theorem deliver_draws : (deliver s).draws = s.draws := by unfold deliver; split <;> rfl
@[simp] theorem deliver_rsp : (deliver s).rsp = none := by
  unfold deliver; split
  · rfl
  · assumption

theorem deliver_some {s : State} {r : Response} (h : s.rsp = some r) :
    deliver s = { s with rsp := none, delivered := s.delivered ++ [r] } := by
  unfold deliver; rw [h]

theorem deliver_none {s : State} (h : s.rsp = none) : deliver s = s := by
  unfold deliver; rw [h]

/-! ### presentCommand and drive -/
@[simp] theorem presentCommand_rsp (cmd : Command) : (presentCommand cmd s).rsp = none := rfl
@[simp] theorem presentCommand_inputs (cmd : Command) : (presentCommand cmd s).inputs = .command cmd :: s.inputs := rfl
@[simp] theorem presentCommand_cfg (cmd : Command) : (presentCommand cmd s).cfg = s.cfg := rfl
@[simp] theorem drive_inputs (is : List HostInput) : (drive is s).inputs = s.inputs ++ is := rfl

/-! ### resetConstruction -/
@[simp] theorem resetConstruction_phase (cfg : Config) (c : Construction) :
    (resetConstruction cfg c).phase = phaseReady := by unfold resetConstruction; split <;> rfl

theorem resetConstruction_sponge {cfg : Config} (h : cfg.kind = .sponge) (c : Construction) :
    resetConstruction cfg c = { c with sw := cfg.iv, phase := phaseReady } := by unfold resetConstruction; rw [h]

theorem resetConstruction_md {cfg : Config} (h : cfg.kind = .md) (c : Construction) :
    resetConstruction cfg c = { c with mds := cfg.mdIv, phase := phaseReady } := by unfold resetConstruction; rw [h]

/-! ### Codes -/
theorem causeCode_ne_ok (c : Cause) : causeCode c ≠ statusOk := by cases c <;> decide
theorem causeCode_le (c : Cause) : (causeCode c).toNat ≤ 5 := by cases c <;> decide

end Sys2Proof.Machine
end

