-- ==== Sys2Proof/Laws/Construction.lean ====
section
/-! SUPPORT. The construction keeps its shape and writes only its own fields (43_construction.md). -/

namespace Sys2Proof.Machine

variable {cfg : Config}

theorem shape_permute (cfg : Config) (sw : List Word) : Word.Shape cfg.W cfg.S (permute cfg sw) :=
  Word.shape_fitAll _ _ _

@[simp] theorem absorb_phase (c : Construction) (blk : List Word) : (absorb cfg c blk).phase = phaseAbsorbing := rfl
@[simp] theorem absorb_mds (c : Construction) (blk : List Word) : (absorb cfg c blk).mds = c.mds := rfl
@[simp] theorem mdAbsorb_phase (c : Construction) (blk : List Word) : (mdAbsorb cfg c blk).phase = phaseAbsorbing := rfl
@[simp] theorem mdAbsorb_sw (c : Construction) (blk : List Word) : (mdAbsorb cfg c blk).sw = c.sw := rfl
@[simp] theorem mdAbsorb_mds (c : Construction) (blk : List Word) :
    (mdAbsorb cfg c blk).mds = mdCompress cfg c.mds blk := rfl

theorem shape_absorb (c : Construction) (blk : List Word) : Word.Shape cfg.W cfg.S (absorb cfg c blk).sw :=
  shape_permute _ _

/-- The live absorb sets ABSORBING (R170, R190). -/
@[simp] theorem absorbLive_phase (c : Construction) (blk : List Word) :
    (absorbLive cfg c blk).phase = phaseAbsorbing := by unfold absorbLive; split <;> rfl

/-- Whatever is absorbed, the phase is the one before or ABSORBING. -/
theorem absorbBlocks_phase (k : Nat) (c : Construction) (m : List Bool) :
    (absorbBlocks cfg k c m).phase = if k = 0 then c.phase else phaseAbsorbing := by
  induction k generalizing c m with
  | zero => rfl
  | succ k ih =>
    rw [absorbBlocks, ih]
    split <;> simp

/-- Whatever is absorbed, SW keeps its shape (R25). -/
theorem absorbBlocks_sw_shape (hk : cfg.kind = .sponge) (k : Nat) {c : Construction} (m : List Bool)
    (h : Word.Shape cfg.W cfg.S c.sw) : Word.Shape cfg.W cfg.S (absorbBlocks cfg k c m).sw := by
  induction k generalizing c m with
  | zero => exact h
  | succ k ih =>
    refine ih _ ?_
    simp only [absorbLive, hk]
    exact shape_absorb _ _

/-- The sponge never writes MDS, the MD path never writes SW. -/
theorem absorbBlocks_mds (hk : cfg.kind = .sponge) (k : Nat) (c : Construction) (m : List Bool) :
    (absorbBlocks cfg k c m).mds = c.mds := by
  induction k generalizing c m with
  | zero => rfl
  | succ k ih => rw [absorbBlocks, ih]; simp [absorbLive, hk]

theorem absorbBlocks_sw (hk : cfg.kind = .md) (k : Nat) (c : Construction) (m : List Bool) :
    (absorbBlocks cfg k c m).sw = c.sw := by
  induction k generalizing c m with
  | zero => rfl
  | succ k ih => rw [absorbBlocks, ih]; simp [absorbLive, hk]

/-! ### XOR into the rate -/

theorem length_xorInto (sw blk : List Word) : (xorInto sw blk).length = sw.length := by
  induction sw generalizing blk with
  | nil => cases blk <;> rfl
  | cons a sw ih => cases blk <;> simp [xorInto, ih]

/-- Inside the rate, XOR acts word by word (R170). -/
theorem xorInto_getD_lt (sw blk : List Word) (i : Nat) (h : i < blk.length) (h2 : i < sw.length) :
    (xorInto sw blk).getD i [] = Word.xor (sw.getD i []) (blk.getD i []) := by
  induction sw generalizing blk i with
  | nil => simp at h2
  | cons a sw ih =>
    cases blk with
    | nil => simp at h
    | cons b blk =>
      cases i with
      | zero => simp [xorInto]
      | succ i => simpa [xorInto] using ih blk i (by simpa using h) (by simpa using h2)

/-- Beyond the rate, nothing changes (R170). -/
theorem xorInto_getD_le (sw blk : List Word) (i : Nat) (h : blk.length ≤ i) : (xorInto sw blk).getD i [] = sw.getD i [] := by
  induction sw generalizing blk i with
  | nil => cases blk <;> simp [xorInto]
  | cons a sw ih =>
    cases blk with
    | nil => simp [xorInto]
    | cons b blk =>
      cases i with
      | zero => simp at h
      | succ i => simpa [xorInto] using ih blk i (by simpa using h)

/-! ### Padding and squeezing -/

theorem shape_pad101 (blk : List Word) (bf : Nat) : ∀ b ∈ pad101 cfg blk bf, Word.Shape cfg.W cfg.B b := by
  intro b hb
  unfold pad101 at hb
  simp only at hb
  split at hb <;> simp only [List.mem_cons, List.not_mem_nil, or_false] at hb
  · subst hb
    exact shape_setStreamBit (shape_setStreamBit (shape_writeStream (Word.shape_zeros _ _) _ _ _) _ _) _ _
  · rcases hb with rfl | rfl
    · exact shape_setStreamBit (shape_writeStream (Word.shape_zeros _ _) _ _ _) _ _
    · exact shape_setStreamBit (Word.shape_zeros _ _) _ _

/-- Every block PAD returns has the shape of a block (R200). -/
theorem shape_pad (blk : List Word) (bf : Nat) : ∀ b ∈ pad cfg blk bf, Word.Shape cfg.W cfg.B b := by
  intro b hb
  unfold pad at hb
  split at hb
  · exact shape_pad101 _ _ b hb
  all_goals
    obtain ⟨x, -, rfl⟩ := List.mem_map.1 hb
    exact Word.shape_fitAll _ _ _

theorem length_squeezeN (hS : cfg.B ≤ cfg.S) (n : Nat) {c : Construction} (h : Word.Shape cfg.W cfg.S c.sw) :
    Word.Shape cfg.W (n * cfg.B) (squeezeN cfg n c) := by
  induction n generalizing c with
  | zero => simp [squeezeN, Word.Shape]
  | succ n ih =>
    rw [squeezeN, Nat.succ_mul, Nat.add_comm]
    exact (h.take hS).append (ih (shape_permute _ _))

/-- The default PACK never meets INJECT's refusal on words of W bits (R123). -/
theorem packDefault_ok (hW : 8 ∣ cfg.W) (words : List Word) :
    packDefault cfg words = .ok
      ((writeStream cfg.digestEndian 8 (Word.zeros 8 (words.length * cfg.W / 8)) 0
        (fun k => streamBit cfg.bufEndian cfg.W words (0 + k)) (words.length * cfg.W)).map Word.toOctet) := by
  have h8 : 8 ∣ words.length * cfg.W := Dvd.dvd.mul_left hW _
  simp only [packDefault]
  rw [inject_ok (by omega) (by simp; omega)]

theorem packWords_ok (hW : 8 ∣ cfg.W) (words : List Word) : ∃ octs, packWords cfg words = .ok octs := by
  unfold packWords
  split
  · exact ⟨_, packDefault_ok hW words⟩
  · exact ⟨_, rfl⟩

/-- Squeezing always gives a digest (R177). -/
theorem squeezeDigest_ok (hW : 8 ∣ cfg.W) (c : Construction) : ∃ d, squeezeDigest cfg c = .ok d := by
  obtain ⟨octs, h⟩ := packWords_ok (cfg := cfg) hW (squeezeN cfg (nSqueeze cfg) c)
  exact ⟨_, by rw [squeezeDigest, h]⟩

/-- DIGEST ends in a digest or in PAD_CONTRACT, the latter exactly when PAD returns more than two blocks for a tail
that is not a full block (R174, R177). -/
theorem digest_cases (hW : 8 ∣ cfg.W) (c : Construction) (blk : List Word) (bf : Nat) :
    (bf ≠ cfg.C ∧ maxPadBlocks < (pad cfg blk bf).length ∧ digest cfg c blk bf = .error (.raise .padContract)) ∨
    (¬ (bf ≠ cfg.C ∧ maxPadBlocks < (pad cfg blk bf).length) ∧ ∃ d, digest cfg c blk bf = .ok d) := by
  by_cases hb : bf = cfg.C
  · refine .inr ⟨by simp [hb], ?_⟩
    rw [digest, if_pos hb]
    exact squeezeDigest_ok hW _
  · by_cases hp : maxPadBlocks < (pad cfg blk bf).length
    · refine .inl ⟨hb, hp, ?_⟩
      rw [digest, if_neg hb, absorbWithPadding]
      simp [hp]
    · refine .inr ⟨by simp [hp], ?_⟩
      rw [digest, if_neg hb, absorbWithPadding]
      simp only [hp, if_false]
      exact squeezeDigest_ok hW _

end Sys2Proof.Machine
end

