-- ==== Sys2Proof/Laws/Decode.lean ====
section
/-! SUPPORT. The fields of a command word (R73), the register numbers (R31), and what an accepted word tells (R81). -/

namespace Sys2Proof

/-! ### Fields -/

variable (bits : BitVec 16) (rsv : BitVec 4) (reg : BitVec 8) (opc : BitVec 4) (w : BitVec 32)

@[simp] theorem fieldOpc_packFields : fieldOpc (packFields bits rsv reg opc) = opc := by
  ext i hi
  have : i < 4 := hi
  simp only [fieldOpc, packFields, BitVec.getElem_extractLsb', BitVec.getLsbD_append]
  simp [this]

@[simp] theorem fieldReg_packFields : fieldReg (packFields bits rsv reg opc) = reg := by
  ext i hi
  have h₁ : ¬ 4 + i < 4 := by omega
  have h₂ : i < 8 := hi
  simp only [fieldReg, packFields, BitVec.getElem_extractLsb', BitVec.getLsbD_append]
  simp [h₂]

@[simp] theorem fieldRsv_packFields : fieldRsv (packFields bits rsv reg opc) = rsv := by
  ext i hi
  have h₁ : ¬ 12 + i < 4 := by omega
  have h₂ : ¬ 12 + i - 4 < 8 := by omega
  have h₃ : 12 + i - 4 - 8 = i := by omega
  simp only [fieldRsv, packFields, BitVec.getElem_extractLsb', BitVec.getLsbD_append]
  simp [h₁, h₂, h₃, hi]

@[simp] theorem fieldBits_packFields : fieldBits (packFields bits rsv reg opc) = bits := by
  ext i hi
  have h₁ : ¬ 16 + i < 4 := by omega
  have h₂ : ¬ 16 + i - 4 < 8 := by omega
  have h₃ : ¬ 16 + i - 4 - 8 < 4 := by omega
  have h₄ : 16 + i - 4 - 8 - 4 = i := by omega
  simp only [fieldBits, packFields, BitVec.getElem_extractLsb', BitVec.getLsbD_append]
  simp [h₁, h₂, h₃, h₄, BitVec.getLsbD_eq_getElem hi]

/-- A command word is the packing of its four fields. -/
theorem packFields_fields : packFields (fieldBits w) (fieldRsv w) (fieldReg w) (fieldOpc w) = w := by
  refine BitVec.eq_of_getLsbD_eq fun i hi => ?_
  simp only [packFields, fieldBits, fieldRsv, fieldReg, fieldOpc, BitVec.getLsbD_append, BitVec.getLsbD_extractLsb']
  by_cases h₁ : i < 4
  · simp [h₁]
  · by_cases h₂ : i - 4 < 8
    · have : 4 + (i - 4) = i := by omega
      simp [h₁, h₂, this]
    · by_cases h₃ : i - 4 - 8 < 4
      · have : 12 + (i - 4 - 8) = i := by omega
        simp [h₁, h₂, h₃, this]
      · have h₄ : i - 4 - 8 - 4 < 16 := by omega
        have : 16 + (i - 4 - 8 - 4) = i := by omega
        simp [h₁, h₂, h₃, h₄, this]

/-! ### Register numbers -/

/-- A register that exists has the number the map gives it (R31). -/
theorem Reg.ofNumber_number {cfg : Config} (hc : cfg.Valid) {r : Reg} (h : r.present cfg = true) :
    Reg.ofNumber cfg r.number = some r := by
  cases r with
  | totalSeen k =>
    have hk : k < cfg.tsW / 64 := by simpa [Reg.present] using h
    have := hc.tsW_max
    have hn : (BitVec.ofNat 8 (8 + k)).toNat = 8 + k := by
      rw [BitVec.toNat_ofNat, Nat.mod_eq_of_lt (by omega)]
    unfold Reg.ofNumber Reg.number
    simp only [hn]
    split
    all_goals first
      | omega
      | (have : 8 ≤ 8 + k ∧ 8 + k < 8 + cfg.tsW / 64 := by omega
         rw [if_pos this]; simp)
  | _ => rfl

/-- A number of the map is the number of the register it names, and that register exists (R31). -/
theorem Reg.number_ofNumber {cfg : Config} {n : BitVec 8} {r : Reg} (h : Reg.ofNumber cfg n = some r) :
    r.number = n ∧ r.present cfg = true := by
  unfold Reg.ofNumber at h
  split at h
  case h_6 =>
    split at h
    · rename_i hm
      cases h
      refine ⟨?_, by simp [Reg.present]; omega⟩
      apply BitVec.eq_of_toNat_eq
      have := n.isLt
      rw [Reg.number, BitVec.toNat_ofNat, Nat.mod_eq_of_lt (by omega)]
      omega
    · cases h
  all_goals
    rename_i heq
    cases h
    refine ⟨?_, rfl⟩
    apply BitVec.eq_of_toNat_eq
    rw [heq]; rfl

/-! ### What the decoder accepts -/

/-- What the decoder's acceptance of a word tells of its fields: the one inversion of R81. -/
theorem decode_cases {cfg : Config} {w : BitVec 32} {p : List Word} {i : Instr} (h : decode cfg w p = .ok i) :
    fieldRsv w = 0 ∧
    ((i = .processWord (p.getD 0 []) (fieldBits w) ∧ fieldOpc w = 1 ∧ fieldReg w = 0) ∨
     (i = .processBlock (p.take cfg.B) (fieldBits w) ∧ fieldOpc w = 2 ∧ fieldReg w = 0) ∨
     (i = .result ∧ fieldOpc w = 3 ∧ fieldReg w = 0 ∧ fieldBits w = 0) ∨
     (i = .reset ∧ fieldOpc w = 4 ∧ fieldReg w = 0 ∧ fieldBits w = 0) ∨
     (∃ r, i = .readReg r ∧ Reg.ofNumber cfg (fieldReg w) = some r ∧ fieldOpc w = 5 ∧ fieldBits w = 0) ∨
     (i = .getBlock ∧ fieldOpc w = 6 ∧ fieldReg w = 0 ∧ fieldBits w = 0) ∨
     (i = .clearErr ∧ fieldOpc w = 7 ∧ fieldReg w = 0 ∧ fieldBits w = 0)) := by
  unfold decode at h
  generalize fieldOpc w = opc at h ⊢
  generalize fieldReg w = reg at h ⊢
  generalize fieldRsv w = rsv at h ⊢
  generalize fieldBits w = bits at h ⊢
  split at h
  · cases h
  split at h
  · cases h
  split at h
  · cases h
  split at h
  · cases h
  rename_i h1 h2 h3 h4
  refine ⟨not_not.1 h2, ?_⟩
  have opcEq : ∀ {k : BitVec 4}, opc.toNat = k.toNat → opc = k := fun e => BitVec.eq_of_toNat_eq e
  have regZ : opc ≠ 5 → reg = 0 := fun h5 => by by_contra hr; exact h3 ⟨h5, hr⟩
  have bitsZ : opc ≠ 1 → opc ≠ 2 → bits = 0 := fun h1' h2' => by by_contra hb; exact h4 ⟨h1', h2', hb⟩
  split at h
  case h_5 heq =>
    have e : opc = 5 := opcEq heq
    split at h
    · rename_i r hr
      cases h
      exact .inr (.inr (.inr (.inr (.inl ⟨r, rfl, hr, e, bitsZ (by rw [e]; decide) (by rw [e]; decide)⟩))))
    · cases h
  case h_1 heq =>
    have e : opc = 1 := opcEq heq
    cases h
    exact .inl ⟨rfl, e, regZ (by rw [e]; decide)⟩
  case h_2 heq =>
    have e : opc = 2 := opcEq heq
    cases h
    exact .inr (.inl ⟨rfl, e, regZ (by rw [e]; decide)⟩)
  case h_3 heq =>
    have e : opc = 3 := opcEq heq
    cases h
    exact .inr (.inr (.inl ⟨rfl, e, regZ (by rw [e]; decide), bitsZ (by rw [e]; decide) (by rw [e]; decide)⟩))
  case h_4 heq =>
    have e : opc = 4 := opcEq heq
    cases h
    exact .inr (.inr (.inr (.inl ⟨rfl, e, regZ (by rw [e]; decide), bitsZ (by rw [e]; decide) (by rw [e]; decide)⟩)))
  case h_6 heq =>
    have e : opc = 6 := opcEq heq
    cases h
    exact .inr (.inr (.inr (.inr (.inr (.inl
      ⟨rfl, e, regZ (by rw [e]; decide), bitsZ (by rw [e]; decide) (by rw [e]; decide)⟩)))))
  case h_7 heq =>
    have e : opc = 7 := opcEq heq
    cases h
    exact .inr (.inr (.inr (.inr (.inr (.inr
      ⟨rfl, e, regZ (by rw [e]; decide), bitsZ (by rw [e]; decide) (by rw [e]; decide)⟩)))))
  case h_8 => cases h

theorem Word.shaped_iff {W n : Nat} {ws : List Word} : Word.shaped W n ws = true ↔ Word.Shape W n ws := by
  simp [Word.shaped, Word.Shape]

/-- An accepted command on payload wires of the right shape is well-formed. -/
theorem decode_wf {cfg : Config} (hc : cfg.Valid) {w : BitVec 32} {p : List Word} (hp : Word.Shape cfg.W cfg.B p)
    {i : Instr} (h : decode cfg w p = .ok i) : i.wf cfg = true := by
  obtain ⟨-, ⟨rfl, -⟩ | ⟨rfl, -⟩ | ⟨rfl, -⟩ | ⟨rfl, -⟩ | ⟨r, rfl, hr, -⟩ | ⟨rfl, -⟩ | ⟨rfl, -⟩⟩ := decode_cases h
  · simpa [Instr.wf] using hp.width hc.B_min
  · exact Word.shaped_iff.2 (hp.take (Nat.le_refl _))
  · rfl
  · rfl
  · exact (Reg.number_ofNumber hr).2
  · rfl
  · rfl

end Sys2Proof
end

