-- ==== Sys2Proof/Laws/Process.lean ====
section
/-! SUPPORT. What APPEND, FLUSH and the PROCESS loop do, said once: later proofs cite these and do not unfold the loop. -/

namespace Sys2Proof.Machine

/-- The stream bits of a source from position `soff`, `n` of them. -/
def sourceSlice (cfg : Config) (src : List Word) (soff n : Nat) : List Bool :=
  (List.range n).map fun k => streamBit cfg.inEndian cfg.W src (soff + k)

@[simp] theorem length_sourceSlice (cfg : Config) (src : List Word) (soff n : Nat) :
    (sourceSlice cfg src soff n).length = n := by simp [sourceSlice]

theorem sourceSlice_zero_start (cfg : Config) (src : List Word) (n : Nat) :
    sourceSlice cfg src 0 n = streamBits cfg.inEndian cfg.W src n := by
  simp only [sourceSlice, streamBits, Nat.zero_add]

theorem sourceSlice_append (cfg : Config) (src : List Word) (soff a b : Nat) :
    sourceSlice cfg src soff a ++ sourceSlice cfg src (soff + a) b = sourceSlice cfg src soff (a + b) := by
  simp only [sourceSlice, List.range_add, List.map_append, List.map_map, Nat.add_assoc]
  rfl

@[simp] theorem length_validBits (s : State) : (validBits s).length = s.filled := by simp [validBits]

/-- A redraw keeps the shape of the buffer. -/
theorem shape_redrawFrom {cfg : Config} {buf : List Word} (h : Word.Shape cfg.W cfg.B buf) (start draws : Nat) :
    Word.Shape cfg.W cfg.B (redrawFrom cfg buf start draws) := shape_writeStream h _ _ _

/-- A redraw keeps the bits below its start and puts free values above (R102, R105). -/
theorem streamBit_redrawFrom {cfg : Config} (hc : cfg.Valid) {buf : List Word} (h : Word.Shape cfg.W cfg.B buf)
    {start : Nat} (hs : start ≤ cfg.C) (draws : Nat) {p : Nat} (hp : p < cfg.C) :
    streamBit cfg.bufEndian cfg.W (redrawFrom cfg buf start draws) p
      = if p < start then streamBit cfg.bufEndian cfg.W buf p else Config.freeBit (draws + p) := by
  have hC : cfg.C = cfg.B * cfg.W := rfl
  rw [redrawFrom, streamBit_writeStream hc.W_octets h _ _ (by omega)]
  by_cases hps : p < start
  · rw [if_neg (by omega), if_pos hps]
  · rw [if_pos (by omega), if_neg hps, Nat.add_sub_cancel' (by omega)]

/-- What APPEND does when it fits and its source has the bits (R102): the bits are appended to the valid ones, FILLED
grows, and nothing else of the spec's changes. -/
theorem append_ok {s : State} (hc : s.cfg.Valid) (hb : Word.Shape s.cfg.W s.cfg.B s.buf) {src : List Word}
    {n soff : Nat} (hn : s.filled + n ≤ s.cfg.C) (hs : soff + n ≤ src.length * s.cfg.W) :
    ∃ buf, append src n soff s
        = .ok { s with buf := buf, filled := s.filled + n, draws := s.draws + s.cfg.C } ∧
      Word.Shape s.cfg.W s.cfg.B buf ∧
      streamBits s.cfg.bufEndian s.cfg.W buf (s.filled + n)
        = validBits s ++ sourceSlice s.cfg src soff n := by
  have hC : s.cfg.C = s.cfg.B * s.cfg.W := rfl
  have hd : s.filled + n ≤ s.buf.length * s.cfg.W := by rw [hb.1]; omega
  have hshape := shape_writeStream hb (pol := s.cfg.bufEndian) s.filled
    (fun k => streamBit s.cfg.inEndian s.cfg.W src (soff + k)) n
  refine ⟨_, by rw [append, if_neg (by omega), inject_ok hs hd]; rfl, shape_redrawFrom hshape _ _, ?_⟩
  refine List.ext_getElem (by simp) fun i h₁ h₂ => ?_
  have hi : i < s.filled + n := by simpa using h₁
  rw [getElem_streamBits, streamBit_redrawFrom hc hshape hn _ (by omega), if_pos hi,
    streamBit_writeStream hc.W_octets hb _ _ (by omega)]
  by_cases hf : i < s.filled
  · rw [if_neg (by omega), List.getElem_append_left (by simpa using hf)]
    simp [validBits, streamBits]
  · rw [if_pos (by omega), List.getElem_append_right (by simpa using hf)]
    simp [sourceSlice]

/-- APPEND past the buffer's room raises CAPACITY_VIOLATION (R104). -/
theorem append_capacity {s : State} {src : List Word} {n soff : Nat} (h : s.cfg.C < s.filled + n) :
    append src n soff s = .error (.raise .capacityViolation) := by rw [append, if_pos h]

/-- The PROCESS loop from a state with room (R146 to R151): it ends, the bits of the source from `processed` on are
taken in, every full block among them is absorbed, and nothing else of the spec's changes. -/
theorem processLoop_ok {src : List Word} {n : Nat} (fuel : Nat) :
    ∀ (processed : Nat) (s : State), s.cfg.Valid → Word.Shape s.cfg.W s.cfg.B s.buf → s.filled < s.cfg.C →
      n ≤ src.length * s.cfg.W → processed ≤ n → n - processed ≤ fuel →
      ∃ buf draws, processLoop src n fuel processed s = .ok
          { s with
            buf := buf
            draws := draws
            filled := (s.filled + (n - processed)) % s.cfg.C
            con := absorbBits s.cfg s.con (validBits s ++ sourceSlice s.cfg src processed (n - processed)) } ∧
        Word.Shape s.cfg.W s.cfg.B buf ∧
        streamBits s.cfg.bufEndian s.cfg.W buf ((s.filled + (n - processed)) % s.cfg.C)
          = tailBits s.cfg (validBits s ++ sourceSlice s.cfg src processed (n - processed)) := by
  have done : ∀ (fuel processed : Nat) (s : State), Word.Shape s.cfg.W s.cfg.B s.buf → s.filled < s.cfg.C →
      processed ≤ n → ¬ processed < n → processLoop src n fuel processed s = .ok s →
      ∃ buf draws, processLoop src n fuel processed s = .ok
          { s with
            buf := buf
            draws := draws
            filled := (s.filled + (n - processed)) % s.cfg.C
            con := absorbBits s.cfg s.con (validBits s ++ sourceSlice s.cfg src processed (n - processed)) } ∧
        Word.Shape s.cfg.W s.cfg.B buf ∧
        streamBits s.cfg.bufEndian s.cfg.W buf ((s.filled + (n - processed)) % s.cfg.C)
          = tailBits s.cfg (validBits s ++ sourceSlice s.cfg src processed (n - processed)) := by
    intro fuel processed s hb hf hp hlt he
    have h0 : n - processed = 0 := by omega
    have hnil : validBits s ++ sourceSlice s.cfg src processed 0 = validBits s := by simp [sourceSlice]
    have hlen : (validBits s).length < s.cfg.C := by simpa using hf
    rw [h0, hnil, absorbBits_of_lt hlen, tailBits_of_lt hlen, Nat.add_zero, Nat.mod_eq_of_lt hf]
    exact ⟨s.buf, s.draws, he, hb, rfl⟩
  induction fuel with
  | zero =>
    intro processed s _ hb hf _ hp hfuel
    have hlt : ¬ processed < n := by omega
    exact done _ _ _ hb hf hp hlt (by rw [processLoop, if_neg hlt])
  | succ fuel ih =>
    intro processed s hc hb hf hn hp hfuel
    by_cases hlt : processed < n
    swap
    · exact done _ _ _ hb hf hp hlt (by rw [processLoop, if_neg hlt])
    have hC := hc.C_pos
    generalize htake : min (s.cfg.C - s.filled) (n - processed) = take
    obtain ⟨buf, he, hbuf, hbits⟩ := append_ok hc hb (src := src) (n := take) (soff := processed) (by omega)
      (by omega)
    have hrest : n - processed = take + (n - (processed + take)) := by omega
    have hsplit : sourceSlice s.cfg src processed (n - processed)
        = sourceSlice s.cfg src processed take ++ sourceSlice s.cfg src (processed + take) (n - (processed + take)) := by
      rw [sourceSlice_append, ← hrest]
    by_cases hfull : s.filled + take = s.cfg.C
    · -- the buffer fills and is flushed
      have hlen : (validBits s ++ sourceSlice s.cfg src processed take).length = s.cfg.C := by simp [hfull]
      have hblk : blockOfBits s.cfg (validBits s ++ sourceSlice s.cfg src processed take) = buf := by
        rw [← hbits, hfull, blockOfBits_streamBits hc hbuf]
      obtain ⟨buf', draws', he', hbuf', hbits'⟩ := ih (processed + take)
        { s with buf := buf, filled := 0, draws := s.draws + s.cfg.C, con := absorbLive s.cfg s.con buf }
        hc hbuf hC hn (by omega) (by omega)
      have hv : validBits
          { s with buf := buf, filled := 0, draws := s.draws + s.cfg.C, con := absorbLive s.cfg s.con buf } = [] := rfl
      simp only [hv, List.nil_append, Nat.zero_add] at he' hbits'
      have hmod : (s.filled + (n - processed)) % s.cfg.C = (n - (processed + take)) % s.cfg.C := by
        rw [hrest, ← Nat.add_assoc, hfull, Nat.add_mod_left]
      refine ⟨buf', draws', ?_, hbuf', ?_⟩
      · have hstep : processLoop src n (fuel + 1) processed s = processLoop src n fuel (processed + take)
            { s with buf := buf, filled := 0, draws := s.draws + s.cfg.C, con := absorbLive s.cfg s.con buf } := by
          rw [processLoop, if_pos hlt]
          simp [htake, he, flushIfFull, isFull, hfull, flush, clean]
        rw [hstep, he', hmod, hsplit, ← List.append_assoc, absorbBits_append hC, absorbBits_of_eq hC hlen,
          tailBits_of_eq hC hlen, hblk, List.nil_append]
      · rw [hmod, hbits', hsplit, ← List.append_assoc, tailBits_append hC, tailBits_of_eq hC hlen, List.nil_append]
    · -- the buffer does not fill, so every bit has been taken
      have hall : take = n - processed := by omega
      obtain ⟨buf', draws', he', hbuf', hbits'⟩ := ih (processed + take)
        { s with buf := buf, filled := s.filled + take, draws := s.draws + s.cfg.C }
        hc hbuf (show s.filled + take < s.cfg.C by omega) hn (by omega) (by omega)
      have hv : validBits { s with buf := buf, filled := s.filled + take, draws := s.draws + s.cfg.C }
          = validBits s ++ sourceSlice s.cfg src processed take := hbits
      simp only [hv, List.append_assoc, ← hsplit] at he' hbits'
      have hsum : s.filled + take + (n - (processed + take)) = s.filled + (n - processed) := by omega
      simp only [hsum] at he' hbits'
      refine ⟨buf', draws', ?_, hbuf', hbits'⟩
      rw [← he', processLoop, if_pos hlt]
      simp [htake, he, flushIfFull, isFull, hfull]

/-- What PROCESS does (R146 to R151). -/
theorem process_ok {s : State} (hc : s.cfg.Valid) (hb : Word.Shape s.cfg.W s.cfg.B s.buf)
    (hf : s.filled < s.cfg.C) {src : List Word} {n : Nat} (hn : n ≤ src.length * s.cfg.W) :
    ∃ buf draws, process src n s = .ok
        { s with
          buf := buf
          draws := draws
          filled := (s.filled + n) % s.cfg.C
          totalSeen := s.totalSeen + n
          con := absorbBits s.cfg s.con (validBits s ++ streamBits s.cfg.inEndian s.cfg.W src n) } ∧
      Word.Shape s.cfg.W s.cfg.B buf ∧
      streamBits s.cfg.bufEndian s.cfg.W buf ((s.filled + n) % s.cfg.C)
        = tailBits s.cfg (validBits s ++ streamBits s.cfg.inEndian s.cfg.W src n) := by
  obtain ⟨buf, draws, he, hbuf, hbits⟩ := processLoop_ok (src := src) (n := n) (n + 1) 0 s hc hb hf hn
    (Nat.zero_le n) (by omega)
  rw [Nat.sub_zero, sourceSlice_zero_start] at he hbits
  exact ⟨buf, draws, by rw [process, he]; rfl, hbuf, hbits⟩

end Sys2Proof.Machine
end

