-- ==== Sys2Proof/Laws/Exec.lean ====
section
/-! SUPPORT. What each meaning answers, case by case: the lemmas later proofs cite in place of unfolding a meaning. -/

namespace Sys2Proof.Machine

/-! ### The arms -/

@[simp] theorem exec_processWord (v : Word) (bits : BitVec 16) (s : State) :
    exec (.processWord v bits) s = submit [v] s.cfg.W bits s := rfl
@[simp] theorem exec_processBlock (blk : List Word) (bits : BitVec 16) (s : State) :
    exec (.processBlock blk bits) s = submit blk s.cfg.C bits s := rfl
@[simp] theorem exec_result (s : State) : exec .result s = execResult s := rfl
@[simp] theorem exec_reset (s : State) : exec .reset s = .next (respondOk .empty (resetAccumulator s)) := rfl
@[simp] theorem exec_readReg (r : Reg) (s : State) : exec (.readReg r) s = execReadReg r s := rfl
@[simp] theorem exec_getBlock (s : State) :
    exec .getBlock s = .next (respondOk (.block (readBlock s)) (spendDraws s)) := rfl
@[simp] theorem exec_clearErr (s : State) : exec .clearErr s = .next (respondOk .empty (acknowledgeError s)) := rfl

/-! ### Operands -/

/-- A BITS operand that the width allows gives between 1 and `width` bits (R75, R140). -/
theorem effectiveBits_bounds {width : Nat} {bits : BitVec 16} (hw : 0 < width)
    (h : lengthInvalid width bits = false) : 1 ≤ effectiveBits width bits ∧ effectiveBits width bits ≤ width := by
  have hle : ¬ width < bits.toNat := by simpa [lengthInvalid] using h
  unfold effectiveBits
  split <;> omega

/-! ### PROCESS_WORD and PROCESS_BLOCK -/

/-- INVALID_LENGTH comes first (R140, R144). -/
theorem submit_invalidLength {src : List Word} {width : Nat} {bits : BitVec 16} {s : State}
    (h : lengthInvalid width bits = true) : submit src width bits s = .next (raiseError .invalidLength s) := by
  simp [submit, h]

/-- LENGTH_OVERFLOW comes second (R141, R144). -/
theorem submit_lengthOverflow {src : List Word} {width : Nat} {bits : BitVec 16} {s : State}
    (h : lengthInvalid width bits = false)
    (ho : lengthOverflows s.cfg s.totalSeen (effectiveBits width bits) = true) :
    submit src width bits s = .next (raiseError .lengthOverflow s) := by
  simp [submit, h, ho]

/-- A submission that passes both checks completes, and this is what it leaves (R142, R143, R146 to R151). -/
theorem submit_ok {src : List Word} {width : Nat} {bits : BitVec 16} {s : State} (hc : s.cfg.Valid)
    (hb : Word.Shape s.cfg.W s.cfg.B s.buf) (hf : s.filled < s.cfg.C)
    (hn : effectiveBits width bits ≤ src.length * s.cfg.W) (h : lengthInvalid width bits = false)
    (ho : lengthOverflows s.cfg s.totalSeen (effectiveBits width bits) = false) :
    ∃ buf draws, submit src width bits s = .next (respondOk .empty
        { s with
          buf := buf
          draws := draws
          filled := (s.filled + effectiveBits width bits) % s.cfg.C
          totalSeen := s.totalSeen + effectiveBits width bits
          con := absorbBits s.cfg s.con
            (validBits s ++ streamBits s.cfg.inEndian s.cfg.W src (effectiveBits width bits)) }) ∧
      Word.Shape s.cfg.W s.cfg.B buf ∧
      streamBits s.cfg.bufEndian s.cfg.W buf ((s.filled + effectiveBits width bits) % s.cfg.C)
        = tailBits s.cfg (validBits s ++ streamBits s.cfg.inEndian s.cfg.W src (effectiveBits width bits)) := by
  obtain ⟨buf, draws, he, hbuf, hbits⟩ := process_ok hc hb hf hn
  exact ⟨buf, draws, by simp [submit, h, ho, he], hbuf, hbits⟩

/-- A PROCESS command on `width` bits of payload ends in one of three ways (R144): INVALID_LENGTH, LENGTH_OVERFLOW, or
the bits taken in. -/
theorem submit_cases {s : State} (hs : Inv s) {src : List Word} {width : Nat} (bits : BitVec 16)
    (hw : 0 < width) (hsrc : width ≤ src.length * s.cfg.W) :
    (lengthInvalid width bits = true ∧ submit src width bits s = .next (raiseError .invalidLength s)) ∨
    (lengthInvalid width bits = false ∧ lengthOverflows s.cfg s.totalSeen (effectiveBits width bits) = true ∧
      submit src width bits s = .next (raiseError .lengthOverflow s)) ∨
    (lengthInvalid width bits = false ∧ lengthOverflows s.cfg s.totalSeen (effectiveBits width bits) = false ∧
      ∃ buf draws, submit src width bits s = .next (respondOk .empty
        { s with
          buf := buf
          draws := draws
          filled := (s.filled + effectiveBits width bits) % s.cfg.C
          totalSeen := s.totalSeen + effectiveBits width bits
          con := absorbBits s.cfg s.con
            (validBits s ++ streamBits s.cfg.inEndian s.cfg.W src (effectiveBits width bits)) }) ∧
      Word.Shape s.cfg.W s.cfg.B buf ∧
      streamBits s.cfg.bufEndian s.cfg.W buf ((s.filled + effectiveBits width bits) % s.cfg.C)
        = tailBits s.cfg (validBits s ++ streamBits s.cfg.inEndian s.cfg.W src (effectiveBits width bits))) := by
  cases h : lengthInvalid width bits with
  | true => exact .inl ⟨rfl, submit_invalidLength h⟩
  | false =>
    cases ho : lengthOverflows s.cfg s.totalSeen (effectiveBits width bits) with
    | true => exact .inr (.inl ⟨rfl, rfl, submit_lengthOverflow h ho⟩)
    | false =>
      exact .inr (.inr ⟨rfl, rfl, submit_ok hs.cfg_valid hs.buf_shape hs.filled_lt
        ((effectiveBits_bounds hw h).2.trans hsrc) h ho⟩)

/-! ### RESULT -/

/-- RESULT on the MD path always completes (R191). -/
theorem execResult_md {s : State} (hk : s.cfg.kind = .md) :
    execResult s = .next (respondOk (.digest (mdDigest s.cfg s.con s.buf s.totalSeen)) s) := by
  simp [execResult, resultDigest, hk]

/-- RESULT on the sponge path answers DIGEST's octets, or PAD_CONTRACT (R155, R174). -/
theorem execResult_sponge {s : State} (hk : s.cfg.kind = .sponge) (hW : 8 ∣ s.cfg.W) (hf : s.filled ≠ s.cfg.C) :
    (maxPadBlocks < (pad s.cfg s.buf s.filled).length ∧ execResult s = .next (raiseError .padContract s)) ∨
    ((pad s.cfg s.buf s.filled).length ≤ maxPadBlocks ∧ ∃ d, digest s.cfg s.con s.buf s.filled = .ok d ∧
      execResult s = .next (respondOk (.digest d) s)) := by
  rcases digest_cases hW s.con s.buf s.filled with ⟨-, hp, he⟩ | ⟨hn, d, hd⟩
  · exact .inl ⟨hp, by simp [execResult, resultDigest, hk, he, stopped]⟩
  · refine .inr ⟨?_, d, hd, by simp [execResult, resultDigest, hk, hd]⟩
    by_contra hlt
    exact hn ⟨hf, by omega⟩

/-! ### READ_REG -/

theorem execReadReg_present {r : Reg} {s : State} (h : r.present s.cfg = true) :
    execReadReg r s = .next (respondOk (.value (regValue s r)) s) := by
  simp [execReadReg, h]

theorem execReadReg_absent {r : Reg} {s : State} (h : r.present s.cfg = false) :
    execReadReg r s = .next (raiseError .illegalCommand s) := by
  simp [execReadReg, h]

/-- The bits of the block GET_BLOCK returns: the valid ones of BUF, a free value elsewhere (R226, R227). -/
theorem streamBit_readBlock {s : State} (hc : s.cfg.Valid) (hb : Word.Shape s.cfg.W s.cfg.B s.buf)
    (hf : s.filled ≤ s.cfg.C) {p : Nat} (hp : p < s.cfg.C) :
    streamBit s.cfg.bufEndian s.cfg.W (readBlock s) p
      = if p < s.filled then streamBit s.cfg.bufEndian s.cfg.W s.buf p else Config.freeBit (s.draws + p) :=
  streamBit_redrawFrom hc hb hf _ hp

theorem shape_readBlock {s : State} (hb : Word.Shape s.cfg.W s.cfg.B s.buf) :
    Word.Shape s.cfg.W s.cfg.B (readBlock s) := shape_redrawFrom hb _ _

end Sys2Proof.Machine
end

