-- ==== Sys2Proof/Laws/Invariant.lean ====
section
/-! SUPPORT. The parts a command's effect is made of keep the invariant of Safety.lean, one by one. -/

namespace Sys2Proof.Machine

/-- A command that raises an error keeps the invariant (R243). -/
theorem inv_raiseError {s : State} (hs : Inv s) (c : Cause) : Inv (raiseError c s) where
  cfg_valid := hs.cfg_valid
  buf_shape := hs.buf_shape
  filled_lt := hs.filled_lt
  length_inv := hs.length_inv
  total_lt := hs.total_lt
  sw_shape := hs.sw_shape
  phase_live := hs.phase_live
  cause_known := causeCode_le c
  err_cause := by simp [causeCode_ne_ok]
  rsp_form := by
    intro r hr
    obtain rfl : (⟨causeCode c, .empty⟩ : Response) = r := by simpa using hr
    exact ⟨causeCode_le c, fun _ => rfl⟩
  inputs_shape := hs.inputs_shape

/-- Whatever is absorbed, SW keeps its shape and the phase stays a live one (R25, R172). -/
theorem absorbBits_inv {s : State} (hs : Inv s) (m : List Bool) :
   (s.cfg.kind = .sponge → Word.Shape s.cfg.W s.cfg.S (absorbBits s.cfg s.con m).sw) ∧
   ((absorbBits s.cfg s.con m).phase = phaseReady ∨ (absorbBits s.cfg s.con m).phase = phaseAbsorbing) := by
  refine ⟨fun hk => absorbBlocks_sw_shape hk _ _ (hs.sw_shape hk), ?_⟩
  rw [absorbBits, absorbBlocks_phase]
  split
  · exact hs.phase_live
  · exact .inr rfl

/-- What `rsp_form` asks holds of an OK response. -/
theorem rsp_form_ok {s : State} {d : RspData} {r : Response} (hr : (respondOk d s).rsp = some r) :
    r.status.toNat ≤ 5 ∧ (r.status ≠ statusOk → r.data = .empty) := by
  obtain rfl : (⟨statusOk, d⟩ : Response) = r := by simpa using hr
  exact ⟨Nat.zero_le _, fun h => absurd rfl h⟩

/-- An OK response keeps the invariant. -/
theorem inv_respondOk {s : State} (hs : Inv s) (d : RspData) : Inv (respondOk d s) :=
  { hs with rsp_form := fun _ hr => rsp_form_ok hr }

/-- What a reset leaves meets the invariant. -/
theorem inv_reset {s t : State} (hc : s.cfg.Valid) (h : Word.Shape s.cfg.W s.cfg.B s.buf)
    (hin : ∀ c, HostInput.command c ∈ s.inputs → Word.Shape s.cfg.W s.cfg.B c.payload)
    (ht : t = respondOk .empty (resetAccumulator s) ∨ t = hardwareReset s) : Inv t := by
  have hsw : s.cfg.kind = .sponge → Word.Shape s.cfg.W s.cfg.S (resetConstruction s.cfg s.con).sw := by
    intro hk; rw [resetConstruction_sponge hk]; exact hc.iv_shape hk
  rcases ht with rfl | rfl
  · exact ⟨hc, h, hc.C_pos, by simp, by simp, hsw, by simp, by simp [statusOk], by simp, fun _ hr => rsp_form_ok hr, hin⟩
  · exact ⟨hc, shape_redrawFrom h _ _, hc.C_pos, by simp, by simp, hsw, by simp, by simp [statusOk], by simp, by simp, hin⟩

/-- The bits of a submission taken in, within TS_W, keep the invariant (R37, R38). -/
theorem inv_submitted {s : State} (hs : Inv s) {buf : List Word} {draws n : Nat} {m : List Bool}
   (hb : Word.Shape s.cfg.W s.cfg.B buf) (ho : lengthOverflows s.cfg s.totalSeen n = false) : Inv
     { s with
          buf := buf
          draws := draws
          filled := (s.filled + n) % s.cfg.C
          totalSeen := s.totalSeen + n
          con := absorbBits s.cfg s.con m } where
  cfg_valid := hs.cfg_valid
  buf_shape := hb
  filled_lt := Nat.mod_lt _ hs.cfg_valid.C_pos
  length_inv := by
    show (s.totalSeen + n) % s.cfg.C = (s.filled + n) % s.cfg.C
    rw [← hs.length_inv, Nat.mod_add_mod]
  total_lt := by
    have : ¬ 2 ^ s.cfg.tsW - 1 < s.totalSeen + n := by simpa [lengthOverflows] using ho
    have := Nat.one_le_two_pow (n := s.cfg.tsW)
    show s.totalSeen + n < 2 ^ s.cfg.tsW
    omega
  sw_shape := (absorbBits_inv hs m).1
  phase_live := (absorbBits_inv hs m).2
  cause_known := hs.cause_known
  err_cause := hs.err_cause
  rsp_form := hs.rsp_form
  inputs_shape := hs.inputs_shape

/-- Taking a response keeps the invariant. -/
theorem inv_deliver {s : State} (hs : Inv s) : Inv (deliver s) := by
  unfold deliver; split
  · exact { hs with rsp_form := by simp }
  · exact hs

/-- Consuming an input keeps the invariant. -/
theorem inv_inputs {s : State} (hs : Inv s) {x rest} (h : s.inputs = x :: rest) : Inv { s with inputs := rest } :=
  { hs with inputs_shape := fun c hc => hs.inputs_shape c (by rw [h]; exact List.mem_cons_of_mem _ hc) }

end Sys2Proof.Machine
end

