-- ==== Sys2Proof/Laws/PerInstr.lean ====
section
/-! SUPPORT. Families of laws made per instruction. EncodingRow: a command is encoded in a word of its own row of the
opcode map, whatever its operands (R74, R80). -/

namespace Sys2Proof.Laws.EncodingRow

/-- The command's word matches the row of the opcode map that has its mnemonic (R80). -/
def Statement (i : Instr) : Prop :=
  ∀ cfg : Config, ∃ row ∈ opcodeRows, row.mnemonic = i.mnemonic ∧ row.matches (encode cfg i).word = true

/-- The low 16 bits of a packing do not depend on BITS. -/
theorem low_bits (bits : BitVec 16) (opc : BitVec 4) (h : (packFields 0#16 0#4 0#8 opc) &&& 0x0000FFFF#32
    = packFields 0#16 0#4 0#8 opc) : packFields bits 0#4 0#8 opc &&& 0x0000FFFF#32 = packFields 0#16 0#4 0#8 opc := by
  rw [← h]
  refine BitVec.eq_of_getLsbD_eq fun i hi => ?_
  simp only [BitVec.getLsbD_and]
  by_cases hi : i < 16
  · congr 1
    simp only [packFields, BitVec.getLsbD_append]
    have : i - 4 < 8 ∨ i - 4 - 8 < 4 := by omega
    rcases this with h | h <;> simp [h]
  · have : (0x0000FFFF#32).getLsbD i = false := by
      rw [show (0x0000FFFF#32) = BitVec.ofNat 32 (2 ^ 16 - 1) from rfl, BitVec.getLsbD_ofNat, Nat.testBit_two_pow_sub_one]
      simp [hi]
    simp [this]

/-- A row with the full mask is matched by its one word. -/
theorem fixed_word {name : String} {pattern : BitVec 32} (opc : BitVec 4) (h : packFields 0#16 0#4 0#8 opc = pattern) :
    OpcodeRow.matches ⟨name, pattern, 0xFFFFFFFF#32⟩ (packFields 0#16 0#4 0#8 opc) = true := by
  rw [OpcodeRow.matches, beq_iff_eq, h, show (0xFFFFFFFF#32) = BitVec.allOnes 32 from rfl, BitVec.and_allOnes]

theorem processWord (v : Word) (bits : BitVec 16) : Statement (.processWord v bits) := fun _ =>
  ⟨⟨"PROCESS_WORD", 0x00000001#32, 0x0000FFFF#32⟩, by simp [opcodeRows], rfl, by
    rw [OpcodeRow.matches, beq_iff_eq]
    exact (low_bits bits 1#4 (by decide)).trans (by decide)⟩

theorem processBlock (blk : List Word) (bits : BitVec 16) : Statement (.processBlock blk bits) := fun _ =>
  ⟨⟨"PROCESS_BLOCK", 0x00000002#32, 0x0000FFFF#32⟩, by simp [opcodeRows], rfl, by
    rw [OpcodeRow.matches, beq_iff_eq]
    exact (low_bits bits 2#4 (by decide)).trans (by decide)⟩

theorem result : Statement .result := fun _ =>
  ⟨⟨"RESULT", 0x00000003#32, 0xFFFFFFFF#32⟩, by simp [opcodeRows], rfl, fixed_word 0x3#4 (by decide)⟩

theorem reset : Statement .reset := fun _ =>
  ⟨⟨"RESET", 0x00000004#32, 0xFFFFFFFF#32⟩, by simp [opcodeRows], rfl, fixed_word 0x4#4 (by decide)⟩

theorem readReg (r : Reg) : Statement (.readReg r) := fun _ =>
  ⟨⟨"READ_REG", 0x00000005#32, 0xFFFF000F#32⟩, by simp [opcodeRows], rfl, by
    have h : ∀ n : BitVec 8, packFields 0#16 0#4 n 5#4 &&& 0xFFFF000F#32 = 0x00000005#32 := by decide
    simpa [OpcodeRow.matches, encode, Instr.bitsField, Instr.regField, Instr.opcode] using h r.number⟩

theorem getBlock : Statement .getBlock := fun _ =>
  ⟨⟨"GET_BLOCK", 0x00000006#32, 0xFFFFFFFF#32⟩, by simp [opcodeRows], rfl, fixed_word 0x6#4 (by decide)⟩

theorem clearErr : Statement .clearErr := fun _ =>
  ⟨⟨"CLEAR_ERR", 0x00000007#32, 0xFFFFFFFF#32⟩, by simp [opcodeRows], rfl, fixed_word 0x7#4 (by decide)⟩

end Sys2Proof.Laws.EncodingRow
end

