-- ==== Sys2Proof/Laws/Step.lean ====
section
/-! SUPPORT. What one step does, by the head of the host's inputs: the one inversion of `step`. -/

namespace Sys2Proof.Machine

variable {s : State}

theorem step_idle (h : s.inputs = []) : step s = .next s := by
  simp [step, channelEvent, h]

theorem step_rst {rest : List HostInput} (h : s.inputs = .rst :: rest) :
    step s = .next (hardwareReset { s with inputs := rest }) := by
  simp [step, channelEvent, h]

theorem step_takeResponse {rest : List HostInput} (h : s.inputs = .takeResponse :: rest) :
    step s = .next (deliver { s with inputs := rest }) := by
  simp [step, channelEvent, h]

theorem step_command_waits {c : Command} {rest : List HostInput} {r : Response}
    (h : s.inputs = .command c :: rest) (hr : s.rsp = some r) : step s = .next (deliver s) := by
  simp [step, channelEvent, h, cmdReady, hr]

theorem step_command_accepted {c : Command} {rest : List HostInput} (h : s.inputs = .command c :: rest)
    (hr : s.rsp = none) : step s = runCommand c { s with inputs := rest } := by
  simp [step, channelEvent, h, cmdReady, hr]

theorem runCommand_ok {c : Command} {i : Instr} (h : decode s.cfg c.word c.payload = .ok i) :
    runCommand c s = exec i s := by
  simp [runCommand, h]

theorem runCommand_illegal {c : Command} {e : Illegal} (h : decode s.cfg c.word c.payload = .error e) :
    runCommand c s = .next (raiseError .illegalCommand s) := by
  simp [runCommand, h]

/-- Every step is one of six: idle, a reset, a response taken, a command that waits, a command that runs, an illegal
command word. -/
theorem step_cases (s : State) :
    (s.inputs = [] ∧ step s = .next s) ∨
    (∃ rest, s.inputs = .rst :: rest ∧ step s = .next (hardwareReset { s with inputs := rest })) ∨
    (∃ rest, s.inputs = .takeResponse :: rest ∧ step s = .next (deliver { s with inputs := rest })) ∨
    (∃ c rest, s.inputs = .command c :: rest ∧ s.rsp ≠ none ∧ step s = .next (deliver s)) ∨
    (∃ c rest i, s.inputs = .command c :: rest ∧ s.rsp = none ∧ decode s.cfg c.word c.payload = .ok i ∧
      step s = exec i { s with inputs := rest }) ∨
    (∃ c rest e, s.inputs = .command c :: rest ∧ s.rsp = none ∧ decode s.cfg c.word c.payload = .error e ∧
      step s = .next (raiseError .illegalCommand { s with inputs := rest })) := by
  match hin : s.inputs with
  | [] => exact .inl ⟨rfl, step_idle hin⟩
  | .rst :: rest => exact .inr (.inl ⟨rest, rfl, step_rst hin⟩)
  | .takeResponse :: rest => exact .inr (.inr (.inl ⟨rest, rfl, step_takeResponse hin⟩))
  | .command c :: rest =>
    rcases Option.eq_none_or_eq_some s.rsp with hr | ⟨r, hr⟩
    · cases hd : decode s.cfg c.word c.payload with
      | ok i =>
        exact .inr (.inr (.inr (.inr (.inl ⟨c, rest, i, rfl, hr, hd,
          (step_command_accepted hin hr).trans (runCommand_ok (s := { s with inputs := rest }) hd)⟩))))
      | error e =>
        exact .inr (.inr (.inr (.inr (.inr ⟨c, rest, e, rfl, hr, hd,
          (step_command_accepted hin hr).trans (runCommand_illegal (s := { s with inputs := rest }) hd)⟩))))
    · exact .inr (.inr (.inr (.inl ⟨c, rest, rfl, by simp [hr], step_command_waits hin hr⟩)))

end Sys2Proof.Machine
end

