-- ==== Sys2Proof/Tests/Slice0.lean ====
section
/-! SUPPORT. Tests. Every expected result is the spec's own: a worked example or a vector of 95_test_vectors.md, named in
the comment, or a word written out from the encoding tables. The witnesses at the end meet the hypotheses of the
statements of Certificates/Slice0/Obligations.lean, one theorem for each statement that has hypotheses. -/

namespace Sys2Proof.Tests

open Sys2Proof Sys2Proof.Machine

/-! ### Helpers -/

/-- Words of W bits from their values. -/
def words (W : Nat) (ns : List Nat) : List Word := ns.map (Word.ofNat W)

/-- A state between commands: `cfg` with these buffer words, FILLED, TOTAL_SEEN, and inputs of the host. -/
def small (cfg : Config) (buf : List Nat) (filled total : Nat) (inputs : List HostInput) : State :=
  { State.resetOf cfg with buf := words cfg.W buf, filled := filled, totalSeen := total, inputs := inputs }

/-- A command word with a payload of T1's two words. -/
def cmd (w : BitVec 32) (payload : List Nat) : Command := ⟨w, words 8 payload⟩

/-- The state after a step, if it answers one. -/
def after (o : Host.Outcome State Fault Refusal) : Option State :=
  match o with
  | .next t => some t
  | .fault _ => none
  | .refused _ => none

/-- The response after a step. -/
def answer (o : Host.Outcome State Fault Refusal) : Option Response := (after o).bind State.rsp

/-- FILLED, TOTAL_SEEN and the values of SW after a step. -/
def counts (o : Host.Outcome State Fault Refusal) : Option (Nat × Nat × List Nat) :=
  (after o).map fun t => (t.filled, t.totalSeen, t.con.sw.map Word.toNat)

/-- The bits of a string of binary digits' values. -/
def bits (ns : List Nat) : List Bool := ns.map fun n => n == 1

/-- T1 on the Merkle–Damgård path. -/
def mdCfg : Config := { Config.t1 with kind := .md, mdIv := 5 }

/-- T1 with the PAD_BAD of program P12, which returns three blocks. -/
def badPadCfg : Config := { Config.t1 with pad := .fixed (List.replicate 3 (words 8 [0, 1])) }

/-- T1 with the widest counter, TS_W = 512, and so TOTAL_SEEN_0 to TOTAL_SEEN_7. -/
def wideCfg : Config := { Config.t1 with tsW := 512 }

/-- T1 with TS_W = 128, and so TOTAL_SEEN_0 and TOTAL_SEEN_1. -/
def pairCfg : Config := { Config.t1 with tsW := 128 }

/-! ### WellFormed: each check refuses an ill-formed term (R77, R31) -/

theorem test_wf_word : (Instr.processWord (Word.ofNat 8 0xC3) 9#16).wf .t1 = true := by decide
theorem test_wf_word_too_short : (Instr.processWord (Word.ofNat 7 0x43) 1#16).wf .t1 = false := by decide
theorem test_wf_block_too_few_words : (Instr.processBlock (words 8 [0x12]) 1#16).wf .t1 = false := by decide
theorem test_wf_block_wrong_width : (Instr.processBlock (words 16 [0x12, 0x34]) 1#16).wf .t1 = false := by decide
theorem test_wf_absent_register : (Instr.readReg (.totalSeen 1)).wf .t1 = false := by decide
theorem test_wf_present_register : (Instr.readReg (.totalSeen 7)).wf wideCfg = true := by decide

/-! ### Decoding: words written out field by field, BITS RSV REG OPC (R73, R80) -/

theorem test_decode_process_word :
    decode .t1 0b0000000000000100_0000_00000000_0001#32 (words 8 [0xC3, 0xFF])
      = .ok (.processWord (Word.ofNat 8 0xC3) 4#16) := by decide
theorem test_decode_process_block :
    decode .t1 0b1000000000000001_0000_00000000_0010#32 (words 8 [0x12, 0x34])
      = .ok (.processBlock (words 8 [0x12, 0x34]) 32769#16) := by decide
theorem test_decode_result : decodeTableWord 32 0b0000000000000000_0000_00000000_0011 = some .result := by decide
theorem test_decode_reset : decodeTableWord 32 0b0000000000000000_0000_00000000_0100 = some .reset := by decide
theorem test_decode_read_reg :
    decodeTableWord 32 0b0000000000000000_0000_00001000_0101 = some (.readReg (.totalSeen 0)) := by decide
theorem test_decode_get_block : decodeTableWord 32 0b0000000000000000_0000_00000000_0110 = some .getBlock := by decide
theorem test_decode_clear_err : decodeTableWord 32 0b0000000000000000_0000_00000000_0111 = some .clearErr := by decide
/-- V83, V84: REG 0x09 and 0x0F are registers exactly when TS_W reaches them. -/
theorem test_decode_total_seen_7 :
    decode wideCfg 0x000000F5#32 [] = .ok (.readReg (.totalSeen 7)) ∧
    decode .t1 0x000000F5#32 [] = .error .notARegister ∧ decode .t1 0x00000095#32 [] = .error .notARegister := by decide
/-- V74 to V81, V85, V86: a non-zero field the opcode does not use, or RSV. -/
theorem test_decode_illegal :
    ([0x00001001#32, 0x00000011#32, 0x00000012#32, 0x00000013#32, 0x00010003#32, 0x00000014#32, 0x00010005#32,
      0x00001005#32, 0x00000016#32, 0x00010006#32, 0x00010007#32, 0x00000008#32, 0x0000000F#32, 0x00000000#32].all
        fun w => (decode .t1 w (words 8 [0, 0])).toOption.isNone) = true := by decide
/-- The seven rows' words run as the first command after reset, as the host's probe places them. -/
theorem test_probe :
    ([1, 2, 3, 4, 5, 6, 7].map fun w => (answer (step (State.reset.withFetchWord 32 w))).map Response.status)
      = List.replicate 7 (some 0#4) := by decide +kernel

/-! ### The stream mapping and INJECT (R130, R129) -/

theorem test_pos_lobb : (List.range 16).map (pos .LOBB 16) = [7, 6, 5, 4, 3, 2, 1, 0, 15, 14, 13, 12, 11, 10, 9, 8] := by
  decide
theorem test_pos_bolb : (List.range 16).map (pos .BOLB 16) = [8, 9, 10, 11, 12, 13, 14, 15, 0, 1, 2, 3, 4, 5, 6, 7] := by
  decide
/-- R129: across a source word boundary, and bits outside the range kept. -/
theorem test_inject_source_boundary :
    (inject (words 16 [0xABCD, 0x1234]) .BOBB 16 20 (Word.zeros 16 2) .BOBB 16 0 6).toOption.map (List.map Word.toNat)
      = some [0xF344, 0x8000] := by decide +kernel
theorem test_inject_keeps_the_rest :
    (inject (words 16 [0x0000]) .BOBB 16 5 (words 16 [0xFFFF]) .BOBB 16 3 0).toOption.map (List.map Word.toNat)
      = some [0xE0FF] := by decide +kernel
/-- R129: {0x12345678} LOLB 32 to LOBB 8 ×4. -/
theorem test_inject_serialise :
    (inject (words 32 [0x12345678]) .LOLB 32 32 (Word.zeros 8 4) .LOBB 8 0 0).toOption.map (List.map Word.toNat)
      = some [0x1E, 0x6A, 0x2C, 0x48] := by decide +kernel

/-! ### PROCESS -/

/-- V4: one bit, the ignored payload bits all 1. -/
theorem test_process_word_one_bit :
    (after (exec (.processWord (Word.ofNat 8 0x7F) 1#16) State.reset)).map (fun t => (t.filled, t.totalSeen, validBits t))
      = some (1, 1, [false]) := by decide +kernel
/-- V12: a word straddles the flush. -/
theorem test_process_word_straddles :
    (after (exec (.processWord (Word.ofNat 8 0xF0) 8#16) (small .t1 [0x12, 0x30] 12 12 []))).map
        (fun t => (t.filled, t.totalSeen, t.con.sw.map Word.toNat, validBits t))
      = some (4, 20, [0x3F, 0x00, 0x01, 0x2D], bits [0, 0, 0, 0]) := by decide +kernel
/-- V14: a full block from FILLED = 15. -/
theorem test_process_block_full_from_15 :
    (after (exec (.processBlock (words 8 [0xAB, 0xCD]) 0#16) (small .t1 [0, 0] 15 15 []))).map
        (fun t => (t.filled, t.totalSeen, t.con.sw.map Word.toNat, validBits t))
      = some (15, 31, [0x01, 0x00, 0x01, 0x01], bits [0, 1, 0, 1, 0, 1, 1, 1, 1, 0, 0, 1, 1, 0, 1]) := by decide +kernel
/-- V6: one full block from reset is flushed at once. -/
theorem test_process_block_flush :
    counts (exec (.processBlock (words 8 [0x12, 0x34]) 0#16) State.reset)
      = some (0, 16, [0x34, 0x00, 0x01, 0x26]) := by decide +kernel
/-- V91, V92, V94: INVALID_LENGTH comes before LENGTH_OVERFLOW, one bit overflows at the top, three bits fit below it. -/
theorem test_process_errors :
    (answer (exec (.processWord (Word.ofNat 8 0) 9#16) (small .t1 [0, 0] 15 (2 ^ 64 - 1) []))).map Response.status
        = some 2#4 ∧
    (answer (exec (.processWord (Word.ofNat 8 0) 1#16) (small .t1 [0, 0] 15 (2 ^ 64 - 1) []))).map Response.status
        = some 4#4 ∧
    counts (exec (.processWord (Word.ofNat 8 0xE0) 3#16) (small .t1 [0xAA, 0xB0] 12 (2 ^ 64 - 4) []))
        = some (15, 2 ^ 64 - 1, [0, 0, 0, 0]) := by decide +kernel

/-! ### RESULT, PAD_101 and PACK -/

/-- V20: the digest of the empty message. -/
theorem test_result_empty :
    answer (exec .result State.reset) = some ⟨0#4, .digest [0x01#8, 0x00#8, 0x01#8]⟩ := by decide +kernel
/-- V28: a room of one bit spills into a second block. -/
theorem test_result_spill :
    answer (exec .result (small .t1 [0xFF, 0xFE] 15 15 []))
      = some ⟨0#4, .digest [0x00#8, 0x01#8, 0x00#8]⟩ := by decide +kernel
/-- V95: PAD_CONTRACT. -/
theorem test_result_pad_contract :
    (after (exec .result (State.resetOf badPadCfg))).map (fun t => (t.rsp, t.err, t.errCause))
      = some (some ⟨5#4, .empty⟩, true, 5#4) := by decide +kernel
/-- R207: bf = 10, 1010101111; the stale bits are ignored. -/
theorem test_pad101 : (pad101 .t1 (words 8 [0xAB, 0xFF]) 10).map (List.map Word.toNat) = [[0xAB, 0xE1]] := by
  decide +kernel
/-- R189: {0x12345678}, LOBB to LOLB. -/
theorem test_pack :
    (packDefault { Config.t1 with W := 32, digestEndian := .LOLB } (words 32 [0x12345678])).toOption
      = some [0x1E#8, 0x6A#8, 0x2C#8, 0x48#8] := by decide +kernel

/-! ### RESET and host access -/

/-- V40: RESET clears an error too. -/
theorem test_reset :
    (after (exec .reset { small .t1 [0x30, 0] 4 20 [] with err := true, errCause := 1#4 })).map
        (fun t => (t.filled, t.totalSeen, t.con, t.err, t.errCause, statusReg t))
      = some (0, 0, ⟨Word.zeros 8 4, 0, 0#2⟩, false, 0#4, 0x05#64) := by decide +kernel
/-- V54: CONFIG of T1. -/
theorem test_read_config :
    answer (exec (.readReg .config) State.reset) = some ⟨0#4, .value 0x00080400182A0201#64⟩ := by decide +kernel
/-- V58: STATUS with an error pending. -/
theorem test_read_status :
    answer (exec (.readReg .status) { State.reset with err := true, errCause := 2#4 })
      = some ⟨0#4, .value 0x0D#64⟩ := by decide +kernel
/-- V59: the valid bits of GET_BLOCK after V26's two commands; the other four are free values. -/
theorem test_get_block :
    (answer (exec .getBlock (small .t1 [0xA5, 0x3F] 12 12 []))).map (fun r =>
        match r.data with
        | .block ws => streamBits .LOBB 8 ws 12
        | .empty | .digest _ | .value _ => [])
      = some (bits [1, 0, 1, 0, 0, 1, 0, 1, 0, 0, 1, 1]) := by decide +kernel
/-- V62: CLEAR_ERR. -/
theorem test_clear_err :
    (after (exec .clearErr { State.reset with err := true, errCause := 2#4 })).map (fun t => (t.rsp, t.err, t.errCause))
      = some (some ⟨0#4, .empty⟩, false, 0#4) := by decide +kernel

/-! ### The channel and the assembler -/

/-- R276: with a response pending the command stays presented and the response is taken. -/
theorem test_command_waits :
    (after (step { State.reset with inputs := [.command (cmd 3#32 [0, 0])], rsp := some ⟨0#4, .empty⟩ })).map
        (fun t => (t.inputs.length, t.rsp, t.delivered.length)) = some (1, none, 1) := by decide +kernel
/-- R86, R88: a text and the words of its lines. -/
theorem test_assembler :
    (assembleText .t1 "process.w 0xC3, 4 ; four bits\nread_reg total_seen0\nrestart".toList).toOption.map
        (List.map Command.word)
      = some [0x00040001#32, 0x00000085#32, 0x00000007#32, 0x00000004#32] := by decide +kernel
/-- R86: BITS over 65535 is refused. -/
theorem test_assembler_refuses :
    (assembleText .t1 "process.w 0xC3, 65536".toList).toOption = none := by decide +kernel

/-! ### The configurations and states of the witnesses -/

theorem valid_t1 : Config.t1.Valid := by
  constructor <;> first | decide | exact fun _ => Word.shape_zeros _ _

theorem valid_md : mdCfg.Valid := by
  constructor <;> first | decide | exact fun _ => Word.shape_zeros _ _

theorem valid_badPad : badPadCfg.Valid := by
  constructor <;> first | decide | exact fun _ => Word.shape_zeros _ _

theorem valid_wide : wideCfg.Valid := by
  constructor <;> first | decide | exact fun _ => Word.shape_zeros _ _

theorem valid_pair : pairCfg.Valid := by
  constructor <;> first | decide | exact fun _ => Word.shape_zeros _ _

theorem shape_words (W : Nat) (ns : List Nat) : Word.Shape W ns.length (words W ns) := by
  refine ⟨by simp [words], fun w hw => ?_⟩
  obtain ⟨n, -, rfl⟩ := List.mem_map.1 hw
  simp

/-- A small state meets the invariant when its counters do. -/
theorem inv_small {cfg : Config} (hc : cfg.Valid) {buf : List Nat} {filled total : Nat} {inputs : List HostInput}
    (hb : buf.length = cfg.B) (hf : filled < cfg.C) (hm : total % cfg.C = filled) (ht : total < 2 ^ cfg.tsW)
    (hin : ∀ c, HostInput.command c ∈ inputs → Word.Shape cfg.W cfg.B c.payload) :
    Inv (small cfg buf filled total inputs) where
  cfg_valid := hc
  buf_shape := hb ▸ shape_words cfg.W buf
  filled_lt := hf
  length_inv := hm
  total_lt := ht
  sw_shape := by
    intro hk
    have hk : cfg.kind = .sponge := hk
    simpa [small, State.resetOf, hk] using hc.iv_shape hk
  phase_live := .inl (by simp only [small, State.resetOf]; split <;> rfl)
  cause_known := Nat.zero_le _
  err_cause := by simp [small, State.resetOf, statusOk]
  rsp_form := by simp [small, State.resetOf]
  inputs_shape := hin

/-- T1 with 12 bits of the message 0xAB, 0xC in the buffer. -/
def at12 : State := small .t1 [0xAB, 0xC0] 12 12 []

/-- The message of `at12`. -/
def m12 : List Bool := bits [1, 0, 1, 0, 1, 0, 1, 1, 1, 1, 0, 0]

/-- T1 three bits below the top of TOTAL_SEEN (V93, V94). -/
def atTop : State := small .t1 [0xAA, 0xB0] 12 (2 ^ 64 - 4) []

/-- T1 with `w` presented on the command channel, payload 0xF0, 0x00. -/
def presenting (w : BitVec 32) : State := small .t1 [0xAB, 0xC0] 12 12 [.command (cmd w [0xF0, 0])]

/-- T1 with `rst` asserted next. -/
def atRst : State := small .t1 [0xAB, 0xC0] 12 12 [.rst]

theorem inv_at12 : Inv at12 :=
  inv_small valid_t1 rfl (by decide) (by decide) (by decide) (by simp)

theorem inv_atTop : Inv atTop :=
  inv_small valid_t1 rfl (by decide) (by decide) (by decide) (by simp)

theorem shape_cmd (w : BitVec 32) (a b : Nat) : Word.Shape Config.t1.W Config.t1.B (cmd w [a, b]).payload :=
  shape_words 8 [a, b]

theorem inv_presenting (w : BitVec 32) : Inv (presenting w) :=
  inv_small valid_t1 rfl (by decide) (by decide) (by decide) (by
    intro c hc
    obtain rfl : c = cmd w [0xF0, 0] := by simpa using hc
    exact shape_cmd _ _ _)

theorem inv_md : Inv (small mdCfg [0xAB, 0xC0] 12 12 []) :=
  inv_small valid_md rfl (by decide) (by decide) (by decide) (by simp)

theorem inv_badPad : Inv (small badPadCfg [0xAB, 0xC0] 12 12 []) :=
  inv_small valid_badPad rfl (by decide) (by decide) (by decide) (by simp)

theorem holds_at12 : Holds at12 m12 := ⟨by decide, by decide, by decide +kernel, by decide +kernel⟩


/-! ### Witnesses, in the order of Certificates/Slice0/Obligations.lean -/

theorem witness_DecodeOfEncodeIsTheCommand :
    Config.t1.Valid ∧ (Instr.processWord (Word.ofNat 8 0xC3) 65535#16).wf .t1 = true ∧
    (Instr.processBlock (words 8 [0x12, 0x34]) 0#16).wf .t1 = true ∧ Instr.result.wf .t1 = true ∧
    Instr.reset.wf .t1 = true ∧ (Instr.readReg (.totalSeen 0)).wf .t1 = true ∧ Instr.getBlock.wf .t1 = true ∧
    Instr.clearErr.wf .t1 = true ∧ wideCfg.Valid ∧ (Instr.readReg (.totalSeen 7)).wf wideCfg = true :=
  ⟨valid_t1, by decide, by decide, by decide, by decide, by decide, by decide, by decide, valid_wide, by decide⟩

theorem witness_EncodeOfDecodeIsTheWord :
    decode .t1 0x000C0002#32 (words 8 [0x12, 0x34]) = .ok (.processBlock (words 8 [0x12, 0x34]) 12#16) := by decide

/-- Two rows and a word of the first; an accepted word. -/
theorem witness_OpcodeRowsDoNotOverlap :
    (⟨"RESULT", 0x00000003#32, 0xFFFFFFFF#32⟩ : OpcodeRow) ∈ opcodeRows ∧
    OpcodeRow.matches ⟨"RESULT", 0x00000003#32, 0xFFFFFFFF#32⟩ 3#32 = true ∧ decode .t1 3#32 [] = .ok .result := by decide

/-- An illegal word of each kind; the last two are the edges of the register map. -/
theorem witness_IllegalWordsAreExactlyTheseAndRaiseIllegalCommand :
    ([0x00000000#32, 0x00000008#32, 0x00001001#32, 0x00000013#32, 0x00010003#32, 0x00000055#32, 0x00000095#32].map
      fun w => (presenting w).inputs.length == 1 && (presenting w).rsp.isNone &&
        (decode (presenting w).cfg w (words 8 [0xF0, 0])).toOption.isNone) = List.replicate 7 true := by decide

/-- Each clause: a count one over 65535; a list one short of B; the greatest count and words that fit. -/
theorem witness_AssemblerChecksCountsAndBlockLength :
    Config.t1.Valid ∧ 65535 < 65536 ∧ [0x12].length ≠ Config.t1.B ∧ 65535 ≤ 65535 ∧ 255 < 2 ^ Config.t1.W ∧
    [255, 0].length = Config.t1.B ∧ ∀ v ∈ [255, 0], v < 2 ^ Config.t1.W :=
  ⟨valid_t1, by decide, by decide, by decide, by decide, by decide, by decide⟩

theorem witness_StepRunsTheDecodedCommand :
    (presenting 0x00080001#32).inputs = [.command (cmd 0x00080001#32 [0xF0, 0])] ∧
    (presenting 0x00080001#32).rsp = none ∧
    decode (presenting 0x00080001#32).cfg 0x00080001#32 (words 8 [0xF0, 0])
      = .ok (.processWord (Word.ofNat 8 0xF0) 8#16) ∧
    decode State.reset.cfg (tableCommand State.reset.cfg 32 3).word (tableCommand State.reset.cfg 32 3).payload
      = .ok .result := by decide

/-- A command that meets a pending response. -/
def waiting : State := { presenting 3#32 with rsp := some ⟨0#4, .empty⟩ }

/-- The host takes the response that is offered. -/
def taking : State := { State.reset with inputs := [.takeResponse], rsp := some ⟨1#4, .empty⟩ }

/-- One state for each clause. -/
theorem witness_OneCommandAtATime :
    (waiting.inputs = [.command (cmd 3#32 [0xF0, 0])] ∧ waiting.rsp = some ⟨0#4, .empty⟩) ∧
    (taking.inputs = [.takeResponse] ∧ taking.rsp = some ⟨1#4, .empty⟩) ∧
    ({ taking with rsp := none }.inputs = [.takeResponse] ∧ { taking with rsp := none }.rsp = none) ∧
    State.reset.inputs = [] := by decide

theorem witness_EveryAcceptedCommandHasOneResponse :
    Inv at12 ∧ at12.rsp = none ∧ Word.Shape at12.cfg.W at12.cfg.B (cmd 0x00090001#32 [0, 0]).payload :=
  ⟨inv_at12, rfl, shape_cmd _ _ _⟩

theorem witness_NoStepChangesTheConfiguration : (after (step (presenting 4#32))).isSome = true := by decide +kernel

theorem witness_InvariantHoldsAtReset : Config.t1.Valid ∧ mdCfg.Valid ∧ wideCfg.Valid :=
  ⟨valid_t1, valid_md, valid_wide⟩

theorem witness_EveryStepKeepsTheInvariant : Inv (presenting 0x000C0002#32) ∧ Inv atTop :=
  ⟨inv_presenting _, inv_atTop⟩

/-- A state no run reaches: FILLED past C, an unknown ERR_CAUSE, PHASE = SQUEEZING. -/
theorem witness_ResetEstablishesTheInvariant :
    let s := { atRst with filled := 99, errCause := 15#4, con := ⟨[], 7, 2#2⟩ }
    s.cfg.Valid ∧ Word.Shape s.cfg.W s.cfg.B s.buf ∧ s.inputs = [.rst] ∧
    ∀ c, HostInput.command c ∈ s.inputs → Word.Shape s.cfg.W s.cfg.B c.payload :=
  ⟨valid_t1, shape_words 8 [0xAB, 0xC0], rfl, by simp [atRst, small]⟩

theorem witness_StreamMappingIsABijection : 8 ∣ 16 ∧ 15 < 16 ∧ 0 < 16 := by decide

/-- Ranges that end at the last bit of both arrays, and one that goes past it. -/
theorem witness_InjectCopiesExactlyTheRange :
    8 ∣ 16 ∧ Word.Shape 16 2 (words 16 [0xFFFF, 0]) ∧
    (6 + 26 ≤ (words 16 [0xABCD, 0x1234]).length * 16 ∧ 6 + 26 ≤ 2 * 16) ∧
    ¬ (6 + 27 ≤ (words 16 [0xABCD, 0x1234]).length * 16 ∧ 5 + 27 ≤ 2 * 16) :=
  ⟨by decide, shape_words 16 [0xFFFF, 0], by decide, by decide⟩

theorem witness_AdjacentInjectsCompose :
    Word.Shape 16 2 (words 16 [0, 0]) ∧ 6 + (10 + 16) ≤ (words 16 [0xABCD, 0x1234]).length * 16 ∧
    6 + (10 + 16) ≤ 2 * 16 :=
  ⟨shape_words 16 [0, 0], by decide, by decide⟩

theorem witness_AlignedInjectCopiesWholeWords :
    8 ∣ 16 ∧ 0 < 16 ∧ Word.Shape 16 2 (words 16 [0xABCD, 0x1234]) ∧ Word.Shape 16 2 (words 16 [0, 0]) ∧
    1 + 1 ≤ 2 ∧ 0 + 1 ≤ 2 ∧ 2 = 2 :=
  ⟨by decide, by decide, shape_words 16 [0xABCD, 0x1234], shape_words 16 [0, 0], by decide, by decide, rfl⟩

/-- One pair of policies for each conversion (R129's words). -/
theorem witness_WholeWordPolicyConversions :
    8 ∣ 16 ∧ (Word.ofNat 16 0x1234).length = 16 ∧ (Word.ofNat 16 0).length = 16 ∧
    inject [Word.ofNat 16 0x1234] .BOBB 16 16 [Word.ofNat 16 0] .LOLB 16 0 0 = .ok [Word.ofNat 16 0x2C48] ∧
    inject [Word.ofNat 16 0x1234] .BOBB 16 16 [Word.ofNat 16 0] .LOBB 16 0 0 = .ok [Word.ofNat 16 0x3412] ∧
    inject [Word.ofNat 16 0x1234] .BOBB 16 16 [Word.ofNat 16 0] .BOLB 16 0 0 = .ok [Word.ofNat 16 0x482C] ∧
    inject [Word.ofNat 16 0x1234] .LOLB 16 16 [Word.ofNat 16 0] .LOLB 16 0 0 = .ok [Word.ofNat 16 0x1234] := by
  decide +kernel

/-- Four bits fill the buffer from FILLED = 12; five do not fit. -/
theorem witness_AppendWritesTheBitsAtTheCursor :
    at12.cfg.Valid ∧ Word.Shape at12.cfg.W at12.cfg.B at12.buf ∧
    3 + 4 ≤ [Word.ofNat 8 0xC3].length * at12.cfg.W ∧ at12.filled + 4 ≤ at12.cfg.C ∧
    3 + 5 ≤ [Word.ofNat 8 0xC3].length * at12.cfg.W ∧ at12.cfg.C < at12.filled + 5 :=
  ⟨valid_t1, shape_words 8 [0xAB, 0xC0], by decide, by decide, by decide, by decide⟩

theorem witness_CapacityViolationIsUnreachable :
    Inv at12 ∧ Word.Shape at12.cfg.W at12.cfg.B (cmd 0x00080001#32 [0xF0, 0]).payload ∧
    Inv (presenting 0x00080001#32) ∧ (presenting 0x00080001#32).errCause ≠ 3#4 :=
  ⟨inv_at12, shape_cmd _ _ _, inv_presenting _, by decide⟩

/-- The full width written as 0 and as W; at the top of TOTAL_SEEN, three bits (V94). -/
theorem witness_ProcessWordTakesInItsBits :
    Inv at12 ∧ (Word.ofNat 8 0xF0).length = at12.cfg.W ∧ (0#16).toNat ≤ at12.cfg.W ∧ (8#16).toNat ≤ at12.cfg.W ∧
    at12.totalSeen + at12.cfg.W ≤ 2 ^ at12.cfg.tsW - 1 ∧
    Inv atTop ∧ atTop.totalSeen + (if (3#16).toNat = 0 then atTop.cfg.W else (3#16).toNat) = 2 ^ atTop.cfg.tsW - 1 :=
  ⟨inv_at12, by decide, by decide, by decide, by decide, inv_atTop, by decide⟩

theorem witness_ProcessBlockTakesInItsBits :
    Inv at12 ∧ Word.Shape at12.cfg.W at12.cfg.B (words 8 [0x12, 0x34]) ∧ (16#16).toNat ≤ at12.cfg.C ∧
    (0#16).toNat ≤ at12.cfg.C ∧ at12.totalSeen + at12.cfg.C ≤ 2 ^ at12.cfg.tsW - 1 :=
  ⟨inv_at12, shape_words 8 [0x12, 0x34], by decide, by decide, by decide⟩

theorem witness_TooManyBitsRaiseInvalidLength :
    at12.cfg.W < (9#16).toNat ∧ at12.cfg.C < (17#16).toNat := by decide

/-- V93, and a whole block from there. -/
theorem witness_TotalSeenNeverWraps :
    (4#16).toNat ≤ atTop.cfg.W ∧
    2 ^ atTop.cfg.tsW - 1 < atTop.totalSeen + (if (4#16).toNat = 0 then atTop.cfg.W else (4#16).toNat) ∧
    (0#16).toNat ≤ atTop.cfg.C ∧
    2 ^ atTop.cfg.tsW - 1 < atTop.totalSeen + (if (0#16).toNat = 0 then atTop.cfg.C else (0#16).toNat) := by decide

/-- V89's word, and PROCESS_BLOCK of 17 bits. -/
theorem witness_ProcessReportsTheFirstError :
    (∀ w, Inv (presenting w) ∧ (presenting w).rsp = none ∧ (presenting w).inputs = [.command (cmd w [0xF0, 0])]) ∧
    (0x00091001#32).toNat % 16 = 1 ∧ (0x00110002#32).toNat % 16 = 2 :=
  ⟨fun w => ⟨inv_presenting w, rfl, rfl⟩, by decide, by decide⟩

theorem witness_SubmissionExtendsTheMessage :
    Inv at12 ∧ Holds at12 m12 ∧ (Instr.processWord (Word.ofNat 8 0xF0) 0#16).wf at12.cfg = true ∧
    isSubmission at12.cfg (.processWord (Word.ofNat 8 0xF0) 0#16) = true ∧
    m12.length + (submittedBits at12.cfg (.processWord (Word.ofNat 8 0xF0) 0#16)).length ≤ 2 ^ at12.cfg.tsW - 1 :=
  ⟨inv_at12, holds_at12, by decide, by decide, by decide⟩

/-- 0xAB then 0xC of four bits, and the same twelve bits as one block. -/
theorem witness_ChunkSplitsDoNotMatter :
    let is : List Instr := [.processWord (Word.ofNat 8 0xAB) 0#16, .processWord (Word.ofNat 8 0xC0) 4#16]
    let js : List Instr := [.processBlock (words 8 [0xAB, 0xC0]) 12#16]
    Inv at12 ∧ (∀ i ∈ is, i.wf at12.cfg = true ∧ isSubmission at12.cfg i = true) ∧
    (∀ j ∈ js, j.wf at12.cfg = true ∧ isSubmission at12.cfg j = true) ∧
    is.flatMap (submittedBits at12.cfg) = js.flatMap (submittedBits at12.cfg) ∧
    at12.totalSeen + (is.flatMap (submittedBits at12.cfg)).length ≤ 2 ^ at12.cfg.tsW - 1 :=
  ⟨inv_at12, by decide, by decide, by decide +kernel, by decide +kernel⟩

theorem witness_AbsorbXorsTheRateAndPermutes :
    Config.t1.Valid ∧ Config.t1.kind = .sponge ∧ Word.Shape 8 4 (words 8 [1, 2, 3, 4]) ∧
    Word.Shape 8 2 (words 8 [0x80, 0x01]) :=
  ⟨valid_t1, rfl, shape_words 8 [1, 2, 3, 4], shape_words 8 [0x80, 0x01]⟩

/-- Two blocks that agree on ten bits and differ after them. -/
theorem witness_PaddingReadsTheValidBitsOnly :
    words 8 [0xAB, 0xC0] ≠ words 8 [0xAB, 0xFF] ∧ 26 % Config.t1.C = 10 ∧
    ∀ p < 10, streamBit Config.t1.bufEndian Config.t1.W (words 8 [0xAB, 0xC0]) p
      = streamBit Config.t1.bufEndian Config.t1.W (words 8 [0xAB, 0xFF]) p := by decide +kernel

/-- bf = C - 2, the last without a spill, and bf = C - 1, the spill. -/
theorem witness_ReferencePaddingIsPad101 :
    Config.t1.Valid ∧ Word.Shape Config.t1.W Config.t1.B (words 8 [0xFF, 0xFE]) ∧ 14 + 1 < Config.t1.C ∧
    15 < Config.t1.C ∧ 15 + 1 = Config.t1.C :=
  ⟨valid_t1, shape_words 8 [0xFF, 0xFE], by decide, by decide, by decide⟩

theorem witness_DefaultPackKeepsTheStream : Config.t1.Valid ∧ 31 < (words 8 [1, 2, 3, 4]).length * Config.t1.W :=
  ⟨valid_t1, by decide⟩

theorem witness_ResultReturnsTheSpongeDigest :
    Inv at12 ∧ at12.cfg.kind = .sponge ∧ (pad at12.cfg at12.buf at12.filled).length ≤ 2 :=
  ⟨inv_at12, rfl, by decide +kernel⟩

theorem witness_ExcessPaddingRaisesPadContract :
    let s := small badPadCfg [0xAB, 0xC0] 12 12 []
    Inv s ∧ s.cfg.kind = .sponge ∧ 2 < (pad s.cfg s.buf s.filled).length :=
  ⟨inv_badPad, rfl, by decide +kernel⟩

theorem witness_ResultReturnsTheMdDigest :
    let s := small mdCfg [0xAB, 0xC0] 12 12 []
    Inv s ∧ s.cfg.kind = .md := ⟨inv_md, rfl⟩

/-- A state whose RESULT answers a digest, and one whose RESULT answers PAD_CONTRACT. -/
theorem witness_ResultIsAPeek :
    Inv at12 ∧ (answer (exec .result at12)).map Response.status = some 0#4 ∧
    Inv (small badPadCfg [0xAB, 0xC0] 12 12 []) ∧
    (answer (exec .result (small badPadCfg [0xAB, 0xC0] 12 12 []))).map Response.status = some 5#4 :=
  ⟨inv_at12, by decide +kernel, inv_badPad, by decide +kernel⟩

/-- The second state has other stale bits, another value in the field of the other KIND, and an error pending. -/
theorem witness_DigestIsAFunctionOfTheMessage :
    let s' := { small .t1 [0xAB, 0xCF] 12 12 [] with
      con := ⟨Word.zeros 8 4, 7, 0#2⟩, err := true, errCause := 1#4 }
    Inv at12 ∧ Holds at12 m12 ∧ (messageDigest at12.cfg m12).toOption.isSome = true ∧
    Inv s' ∧ s'.cfg = at12.cfg ∧ Holds s' m12 :=
  ⟨inv_at12, holds_at12, by decide +kernel,
    { inv_small valid_t1 (buf := [0xAB, 0xCF]) (filled := 12) (total := 12) (inputs := []) rfl (by decide) (by decide)
        (by decide) (by simp) with
      sw_shape := fun _ => Word.shape_zeros 8 4
      phase_live := .inl rfl
      cause_known := by decide
      err_cause := by decide },
    rfl, ⟨by decide, by decide, by decide +kernel, by decide +kernel⟩⟩

/-- V12: one block taken in and four bits after it. -/
def afterV12 : State :=
  { small .t1 [0x00, 0x00] 4 20 [] with con := ⟨words 8 [0x3F, 0x00, 0x01, 0x2D], 0, phaseAbsorbing⟩ }

/-- The same message on the Merkle–Damgård path. -/
def afterV12Md : State :=
  { small mdCfg [0x00, 0x00] 4 20 [] with con := ⟨[], mdCompress mdCfg 5 (words 8 [0x12, 0x3F]), phaseAbsorbing⟩ }

theorem inv_afterV12 : Inv afterV12 :=
  { inv_small valid_t1 (buf := [0x00, 0x00]) (filled := 4) (total := 20) (inputs := []) rfl (by decide) (by decide)
      (by decide) (by simp) with
    sw_shape := fun _ => shape_words 8 [0x3F, 0x00, 0x01, 0x2D]
    phase_live := .inr rfl }

theorem inv_afterV12Md : Inv afterV12Md :=
  { inv_small valid_md (buf := [0x00, 0x00]) (filled := 4) (total := 20) (inputs := []) rfl (by decide) (by decide)
      (by decide) (by simp) with
    sw_shape := fun h => by cases h
    phase_live := .inr rfl }

/-- One block and four bits after it, on both paths; no block at all. -/
theorem witness_LiveStateIsTheFoldOfItsBlocks :
    let blocks := [words 8 [0x12, 0x3F]]
    let rest := bits [0, 0, 0, 0]
    Inv afterV12 ∧ (∀ b ∈ blocks, Word.Shape 8 2 b) ∧ rest.length < afterV12.cfg.C ∧
    Holds afterV12 ((blocks.flatMap fun b => streamBits .LOBB 8 b 16) ++ rest) ∧ afterV12.cfg.kind = .sponge ∧
    Inv afterV12Md ∧ afterV12Md.cfg.kind = .md ∧
    Holds afterV12Md ((blocks.flatMap fun b => streamBits .LOBB 8 b 16) ++ rest) ∧
    Inv at12 ∧ m12.length < at12.cfg.C ∧
      Holds at12 (([] : List (List Word)).flatMap (fun b => streamBits .LOBB 8 b 16) ++ m12) :=
  ⟨inv_afterV12, fun b hb => List.mem_singleton.1 hb ▸ shape_words 8 [0x12, 0x3F], by decide,
    ⟨by decide, by decide, by decide +kernel, by decide +kernel⟩, rfl,
    inv_afterV12Md, rfl, ⟨by decide, by decide, by decide +kernel, rfl⟩, inv_at12, by decide, holds_at12⟩

/-- An ABSORBING state that meets the invariant, with RESET presented: the step leads to READY. -/
theorem witness_OnlyResetReturnsToReady :
    let s := { presenting 4#32 with con := ⟨Word.zeros 8 4, 0, phaseAbsorbing⟩ }
    Inv s ∧ s.con.phase = phaseAbsorbing ∧ (after (step s)).map (fun t => t.con.phase) = some phaseReady :=
  ⟨{ inv_presenting 4#32 with
      sw_shape := fun _ => Word.shape_zeros 8 4
      phase_live := .inr rfl }, rfl, by decide⟩

/-- Every register of the map under TS_W = 512, the last one among them. -/
theorem witness_ReadRegHasNoSideEffects :
    (Reg.status.present wideCfg && Reg.errCause.present wideCfg && Reg.bitsUsed.present wideCfg &&
      Reg.capacity.present wideCfg && Reg.config.present wideCfg && (Reg.totalSeen 0).present wideCfg &&
      (Reg.totalSeen 7).present wideCfg) = true := by decide

theorem witness_StatusRegisterFields : Inv at12 ∧ Inv State.reset :=
  ⟨inv_at12, inv_small valid_t1 (buf := [0, 0]) rfl (by decide) (by decide) (by decide) (by simp)⟩

theorem witness_ConfigRegisterFields : at12.cfg.Valid ∧ (at12.cfg.kind = .sponge → at12.cfg.S < 256) :=
  ⟨valid_t1, fun _ => by decide⟩

/-- TOTAL_SEEN past 64 bits under TS_W = 128. -/
theorem witness_CounterRegisters :
    let s := small pairCfg [0xAB, 0xC0] 12 (2 ^ 100 + 12) []
    Inv s ∧ 1 < s.cfg.tsW / 64 :=
  ⟨inv_small valid_pair rfl (by decide) (by decide) (by decide) (by simp), by decide⟩

theorem witness_GetBlockReturnsTheValidBits : Inv at12 ∧ Holds at12 m12 ∧ 11 < at12.filled :=
  ⟨inv_at12, holds_at12, by decide⟩

/-- V87: a command that raises INVALID_LENGTH. -/
theorem witness_ErrorsArePrecise :
    (answer (runCommand (cmd 0x00090001#32 [0, 0]) at12)) = some ⟨2#4, .empty⟩ ∧ (2#4 : BitVec 4) ≠ 0#4 := by decide

theorem witness_ErrIsSticky :
    let s := { at12 with err := true, errCause := 1#4 }
    Inv s ∧ (Instr.processWord (Word.ofNat 8 0xF0) 8#16).wf s.cfg = true ∧ Instr.result.wf s.cfg = true ∧
    Instr.clearErr.wf s.cfg = true :=
  ⟨{ inv_at12 with
      cause_known := by decide
      err_cause := by decide }, by decide, by decide, by decide⟩

/-- A PROCESS, and READ_REG of a register that does not show the error and of one that does. -/
theorem witness_PendingErrorBlocksNothing :
    Inv at12 ∧ (Instr.processWord (Word.ofNat 8 0xF0) 8#16).wf at12.cfg = true ∧
    (Instr.readReg .capacity).wf at12.cfg = true ∧ (Instr.readReg .errCause).wf at12.cfg = true ∧
    Instr.readReg .capacity ≠ .readReg .status ∧ Instr.readReg .capacity ≠ .readReg .errCause :=
  ⟨inv_at12, by decide, by decide, by decide, by decide, by decide⟩

/-- A PROCESS that does not flush, one that does, and the other commands. -/
theorem witness_CommandsWriteOnlyTheirState :
    Inv at12 ∧ (Instr.processWord (Word.ofNat 8 0xF0) 3#16).wf at12.cfg = true ∧
    (Instr.processBlock (words 8 [0x12, 0x34]) 4#16).wf at12.cfg = true ∧ Instr.result.wf at12.cfg = true ∧
    (Instr.readReg .status).wf at12.cfg = true ∧ Instr.getBlock.wf at12.cfg = true ∧
    Instr.clearErr.wf at12.cfg = true ∧ Instr.reset.wf at12.cfg = true ∧
    Inv (small mdCfg [0xAB, 0xC0] 12 12 []) :=
  ⟨inv_at12, by decide, by decide, by decide, by decide, by decide, by decide, by decide, inv_md⟩

theorem witness_ResetCommandLeavesTheResetValues :
    at12.cfg.kind = .sponge ∧ (small mdCfg [0xAB, 0xC0] 12 12 []).cfg.kind = .md := ⟨rfl, rfl⟩

theorem witness_HardwareResetHasTheEffectOfReset :
    atRst.inputs = [.rst] ∧ atRst.cfg.Valid ∧ Word.Shape atRst.cfg.W atRst.cfg.B atRst.buf ∧ 15 < atRst.cfg.C :=
  ⟨rfl, valid_t1, shape_words 8 [0xAB, 0xC0], by decide⟩

theorem witness_RegistersAfterReset :
    at12.cfg.Valid ∧ exec .reset at12 = .next (respondOk .empty (resetAccumulator at12)) := ⟨valid_t1, rfl⟩

theorem witness_ResetForgetsTheCommandBeforeIt :
    Inv at12 ∧ Word.Shape at12.cfg.W at12.cfg.B (cmd 0x00080001#32 [0xF0, 0]).payload := ⟨inv_at12, shape_cmd _ _ _⟩

/-- The same twelve valid bits with other stale bits after them. -/
theorem witness_StaleBitsAffectNothing :
    let s' := small .t1 [0xAB, 0xCF] 12 12 []
    Inv at12 ∧ Inv s' ∧ SameButStale at12 s' ∧ s'.buf ≠ at12.buf ∧ Instr.result.wf at12.cfg = true :=
  ⟨inv_at12, inv_small valid_t1 rfl (by decide) (by decide) (by decide) (by simp), ⟨rfl, by decide +kernel⟩, by decide,
    by decide⟩

/-- Four bits fill the buffer of `at12`, on both paths. -/
theorem witness_ExactFillAbsorbsOneBlock :
    let i : Instr := .processWord (Word.ofNat 8 0xF0) 4#16
    let blk := words 8 [0xAB, 0xCF]
    let md := small mdCfg [0xAB, 0xC0] 12 12 []
    Inv at12 ∧ i.wf at12.cfg = true ∧ isSubmission at12.cfg i = true ∧
    at12.totalSeen + (submittedBits at12.cfg i).length ≤ 2 ^ at12.cfg.tsW - 1 ∧
    Word.Shape at12.cfg.W at12.cfg.B blk ∧
    streamBits at12.cfg.bufEndian at12.cfg.W blk at12.cfg.C = validBits at12 ++ submittedBits at12.cfg i ∧
    at12.cfg.kind = .sponge ∧ Inv md ∧ i.wf md.cfg = true ∧ isSubmission md.cfg i = true ∧ md.cfg.kind = .md ∧
    streamBits md.cfg.bufEndian md.cfg.W blk md.cfg.C = validBits md ++ submittedBits md.cfg i :=
  ⟨inv_at12, by decide, by decide, by decide, shape_words 8 [0xAB, 0xCF], by decide +kernel, rfl, inv_md, by decide,
    by decide, rfl, by decide +kernel⟩

end Sys2Proof.Tests
end

section
/-! Proofs of the statements about the state: what a step keeps (R37, R38, R40, R57), and which command writes which
state (R42). -/

namespace Sys2Proof.Machine

/-! ### No operation writes the configuration (R40) -/

theorem stopped_cfg {s t : State} {e : Stop} (h : stopped s e = .next t) : t.cfg = s.cfg := by
  cases e with
  | raise c => cases h; rfl
  | fault f => cases h
  | refuse r => cases h

theorem append_cfg {src : List Word} {n soff : Nat} {s t : State} (h : append src n soff s = .ok t) :
    t.cfg = s.cfg := by
  unfold append at h
  split at h
  · cases h
  · split at h
    · cases h
    · cases h; rfl

@[simp] theorem flushIfFull_cfg (s : State) : (flushIfFull s).cfg = s.cfg := by
  unfold flushIfFull
  split <;> rfl

theorem processLoop_cfg {src : List Word} {n : Nat} (fuel : Nat) {processed : Nat} {s t : State}
    (h : processLoop src n fuel processed s = .ok t) : t.cfg = s.cfg := by
  induction fuel generalizing processed s with
  | zero =>
    rw [processLoop] at h
    split at h <;> cases h
    rfl
  | succ fuel ih =>
    rw [processLoop] at h
    split at h
    · dsimp only at h
      split at h
      · cases h
      next u hu => rw [ih h, flushIfFull_cfg, append_cfg hu]
    · cases h; rfl

theorem process_cfg {src : List Word} {n : Nat} {s t : State} (h : process src n s = .ok t) : t.cfg = s.cfg := by
  unfold process at h
  split at h
  next u hu => cases h; exact (processLoop_cfg _ hu :)
  · cases h

theorem submit_cfg {src : List Word} {width : Nat} {bits : BitVec 16} {s t : State}
    (h : submit src width bits s = .next t) : t.cfg = s.cfg := by
  unfold submit at h
  dsimp only at h
  split at h
  · cases h; rfl
  · split at h
    · cases h; rfl
    · split at h
      next u hu => cases h; exact (process_cfg hu :)
      · exact stopped_cfg h

theorem execResult_cfg {s t : State} (h : execResult s = .next t) : t.cfg = s.cfg := by
  unfold execResult at h
  split at h
  · cases h; rfl
  · exact stopped_cfg h

theorem execReadReg_cfg {r : Reg} {s t : State} (h : execReadReg r s = .next t) : t.cfg = s.cfg := by
  unfold execReadReg at h
  split at h <;> cases h <;> rfl

/-- No command changes the configuration, from any state (R40). -/
theorem exec_cfg {i : Instr} {s t : State} (h : exec i s = .next t) : t.cfg = s.cfg := by
  cases i with
  | processWord v bits => exact submit_cfg h
  | processBlock blk bits => exact submit_cfg h
  | result => exact execResult_cfg h
  | readReg r => exact execReadReg_cfg h
  | reset => cases h; rfl
  | getBlock => cases h; rfl
  | clearErr => cases h; rfl

/-! ### Commands from a state that meets the invariant -/

/-- A well-formed PROCESS_BLOCK carries the C bits its width promises (R70). -/
theorem capacity_le_of_wf {cfg : Config} {blk : List Word} {bits : BitVec 16}
    (h : (Instr.processBlock blk bits).wf cfg = true) : cfg.C ≤ blk.length * cfg.W := by
  rw [(Word.shaped_iff.1 h).length]
  exact le_rfl

/-- RESULT raises PAD_CONTRACT or answers a digest; either way it writes nothing of the live state (R155, R174). -/
theorem execResult_cases {s : State} (hs : Inv s) :
    execResult s = .next (raiseError .padContract s) ∨ ∃ d, execResult s = .next (respondOk (.digest d) s) := by
  cases hk : s.cfg.kind with
  | md => exact .inr ⟨_, execResult_md hk⟩
  | sponge =>
    rcases execResult_sponge hk hs.cfg_valid.W_octets hs.filled_lt.ne with ⟨-, h⟩ | ⟨-, d, -, h⟩
    · exact .inl h
    · exact .inr ⟨d, h⟩

/-- Every PROCESS command completes and keeps the invariant (R37, R38). -/
theorem submit_inv {s : State} (hs : Inv s) {src : List Word} {width : Nat} (bits : BitVec 16) (hw : 0 < width)
    (hsrc : width ≤ src.length * s.cfg.W) : ∃ t, submit src width bits s = .next t ∧ Inv t := by
  rcases submit_cases hs bits hw hsrc with ⟨-, h⟩ | ⟨-, -, h⟩ | ⟨-, ho, buf, draws, h, hbuf, -⟩
  · exact ⟨_, h, inv_raiseError hs _⟩
  · exact ⟨_, h, inv_raiseError hs _⟩
  · exact ⟨_, h, inv_respondOk (inv_submitted hs hbuf ho) _⟩

/-- Every well-formed command completes and keeps the invariant. -/
theorem exec_inv {s : State} (hs : Inv s) {i : Instr} (hi : i.wf s.cfg = true) : ∃ t, exec i s = .next t ∧ Inv t := by
  cases i with
  | processWord v bits => exact submit_inv hs bits hs.cfg_valid.W_pos (by simp)
  | processBlock blk bits => exact submit_inv hs bits hs.cfg_valid.C_pos (capacity_le_of_wf hi)
  | result =>
    rcases execResult_cases hs with h | ⟨d, h⟩
    · exact ⟨_, h, inv_raiseError hs _⟩
    · exact ⟨_, h, inv_respondOk hs _⟩
  | reset => exact ⟨_, rfl, inv_reset hs.cfg_valid hs.buf_shape hs.inputs_shape (.inl rfl)⟩
  | readReg r => exact ⟨_, execReadReg_present hi, inv_respondOk hs _⟩
  | getBlock =>
    have hspent : Inv (spendDraws s) := { hs with }
    exact ⟨_, rfl, inv_respondOk hspent _⟩
  | clearErr =>
    have hack : Inv (acknowledgeError s) := { hs with cause_known := Nat.zero_le _, err_cause := by simp }
    exact ⟨_, rfl, inv_respondOk hack _⟩

/-- The reset state of every valid configuration meets the invariant (R41). -/
theorem inv_resetOf {cfg : Config} (hc : cfg.Valid) : Inv (State.resetOf cfg) where
  cfg_valid := hc
  buf_shape := Word.shape_zeros _ _
  filled_lt := hc.C_pos
  length_inv := Nat.zero_mod _
  total_lt := Nat.two_pow_pos _
  sw_shape := fun (hk : cfg.kind = .sponge) => by simpa [State.resetOf, hk] using hc.iv_shape hk
  phase_live := by cases hk : cfg.kind <;> simp [State.resetOf, hk, phaseReady]
  cause_known := Nat.zero_le _
  err_cause := by simp [State.resetOf, statusOk]
  rsp_form := by simp [State.resetOf]
  inputs_shape := by simp [State.resetOf]

/-- The toy configuration meets the constraints of R8. -/
theorem t1_valid : Config.t1.Valid := by
  constructor
  case iv_shape => exact fun _ => Word.shape_zeros _ _
  all_goals decide

/-! ### What a command writes (R42) -/

/-- The outcome is a response to a command from `s` and leaves the host's fields: an OK one in a state with `P`, or an
error's, which writes ERR, ERR_CAUSE and the response only (R242, R243). -/
def Answers (s : State) (o : Host.Outcome State Fault Refusal) (P : State → Prop) : Prop :=
  ∃ t r, o = .next t ∧ t.rsp = some r ∧ SameHost s t ∧ (r.status = 0#4 → P t) ∧
    (r.status ≠ 0#4 → SameArch s { t with err := s.err, errCause := s.errCause } ∧ t.err = true ∧
      t.errCause = r.status ∧ t.draws = s.draws)

section

variable {s : State} {P : State → Prop}

/-- Raising an error answers, whatever a success would have written. -/
theorem answers_raiseError (c : Cause) : Answers s (.next (raiseError c s)) P :=
  ⟨_, _, rfl, rfl, ⟨rfl, rfl, rfl⟩, fun h => absurd h (causeCode_ne_ok c),
    fun _ => ⟨⟨rfl, rfl, rfl, rfl, rfl, rfl, rfl⟩, rfl, rfl, rfl⟩⟩

/-- An OK response answers with what its state meets. -/
theorem answers_respondOk {u : State} (d : RspData) (hu : SameHost s u) (hP : P (respondOk d u)) :
    Answers s (.next (respondOk d u)) P :=
  ⟨_, _, rfl, rfl, ⟨hu.cfg, hu.inputs, hu.delivered⟩, fun _ => hP, fun h => absurd rfl h⟩

theorem SameHost.refl (s : State) : SameHost s s := ⟨rfl, rfl, rfl⟩

/-- A response by itself writes nothing of the spec's other state. -/
theorem sameArch_respondOk (d : RspData) : SameArch s (respondOk d s) := ⟨rfl, rfl, rfl, rfl, rfl, rfl, rfl⟩

/-- A full block or more leaves the construction ABSORBING (R170, R190). -/
theorem absorbBits_phase_of_le {cfg : Config} (hC : 0 < cfg.C) (c : Construction) {m : List Bool}
    (h : cfg.C ≤ m.length) : (absorbBits cfg c m).phase = phaseAbsorbing := by
  rw [absorbBits, absorbBlocks_phase, if_neg (Nat.div_pos h hC).ne']

/-- What R42 lets a successful PROCESS write besides BUF, FILLED and `draws`. -/
def ProcessWrites (s t : State) : Prop :=
  t.err = s.err ∧ t.errCause = s.errCause ∧ s.totalSeen < t.totalSeen ∧
  (s.filled + (t.totalSeen - s.totalSeen) < s.cfg.C → t.con = s.con) ∧
  (s.cfg.C ≤ s.filled + (t.totalSeen - s.totalSeen) → t.con.phase = phaseAbsorbing) ∧
  (s.cfg.kind = .sponge → t.con.mds = s.con.mds) ∧ (s.cfg.kind = .md → t.con.sw = s.con.sw)

/-- A state in which the valid bits and `n` more have been absorbed block by block. -/
theorem processWrites_of_absorbBits (hC : 0 < s.cfg.C) {t : State} {n : Nat} {m : List Bool} (hn : 0 < n)
    (hm : m.length = s.filled + n) (herr : t.err = s.err) (hcause : t.errCause = s.errCause)
    (htotal : t.totalSeen = s.totalSeen + n) (hcon : t.con = absorbBits s.cfg s.con m) : ProcessWrites s t := by
  have hgrown : s.filled + (t.totalSeen - s.totalSeen) = m.length := by omega
  rw [ProcessWrites, hgrown, hcon]
  exact ⟨herr, hcause, by omega, fun h => absorbBits_of_lt h _, absorbBits_phase_of_le hC _,
    fun hk => absorbBlocks_mds hk _ _ _, fun hk => absorbBlocks_sw hk _ _ _⟩

theorem answers_submit (hs : Inv s) {src : List Word} {width : Nat} (bits : BitVec 16) (hw : 0 < width)
    (hsrc : width ≤ src.length * s.cfg.W) : Answers s (submit src width bits s) (ProcessWrites s) := by
  rcases submit_cases hs bits hw hsrc with ⟨-, h⟩ | ⟨-, -, h⟩ | ⟨hlen, -, buf, draws, h, -, -⟩
  · exact h ▸ answers_raiseError _
  · exact h ▸ answers_raiseError _
  · have hn := (effectiveBits_bounds hw hlen).1
    exact h ▸ answers_respondOk _ ⟨rfl, rfl, rfl⟩
      (processWrites_of_absorbBits hs.cfg_valid.C_pos hn (by simp) rfl rfl rfl rfl)

theorem answers_result (hs : Inv s) : Answers s (execResult s) fun t => SameArch s t ∧ t.draws = s.draws := by
  rcases execResult_cases hs with h | ⟨d, h⟩
  · exact h ▸ answers_raiseError _
  · exact h ▸ answers_respondOk _ (.refl s) ⟨sameArch_respondOk _, rfl⟩

theorem answers_readReg {r : Reg} (h : r.present s.cfg = true) :
    Answers s (execReadReg r s) fun t => SameArch s t ∧ t.draws = s.draws :=
  execReadReg_present h ▸ answers_respondOk _ (.refl s) ⟨sameArch_respondOk _, rfl⟩

end

/-! ### Register values -/

/-- The value of a packed register: the upper field above the lower one. -/
theorem toNat_append_eq_add {m n : Nat} (x : BitVec m) (y : BitVec n) :
    (x ++ y).toNat = x.toNat * 2 ^ n + y.toNat := by
  rw [BitVec.toNat_append, ← Nat.shiftLeft_add_eq_or_of_lt y.isLt, Nat.shiftLeft_eq]

theorem toNat_kindBit (k : Kind) : (kindBit k).toNat = if k = .md then 1 else 0 := by cases k <;> rfl

theorem toNat_ofBool_decide (p : Prop) [Decidable p] :
    (BitVec.ofBool (decide p)).toNat = if p then 1 else 0 := by by_cases h : p <;> simp [h]

/-- READ_REG of a register of the map writes the response only (R220). -/
theorem exec_readReg_present {s : State} {r : Reg} (h : r.present s.cfg = true) :
    exec (.readReg r) s = .next { s with rsp := some ⟨0#4, .value (regValue s r)⟩ } :=
  execReadReg_present h

/-- The value of STATUS, field by field (R32). -/
theorem toNat_statusReg (s : State) :
    (statusReg s).toNat = (if s.filled = 0 then 1 else 0) + (if s.filled = s.cfg.C then 2 else 0)
      + (if s.filled % s.cfg.W = 0 then 4 else 0) + (if s.err then 8 else 0) + 16 * s.con.phase.toNat
      + (if s.cfg.kind = .md then 64 else 0) := by
  have herr : (BitVec.ofBool s.err).toNat = if s.err then 1 else 0 := by cases s.err <;> rfl
  simp only [statusReg, toNat_append_eq_add, toNat_kindBit, isEmpty, isFull, isWordAligned, toNat_ofBool_decide, herr,
    BitVec.toNat_ofNat, add_mul, ite_mul, zero_mul, Nat.reduceMul, Nat.reducePow, Nat.zero_mod]
  omega

/-- The live PHASE reads 0 or 1 (R172). -/
theorem Inv.phase_le_one {s : State} (hs : Inv s) : s.con.phase.toNat ≤ 1 := by
  rcases hs.phase_live with h | h <;> rw [h] <;> decide

theorem toNat_stateWordsField {cfg : Config} (h : cfg.kind = .sponge → cfg.S < 256) :
    (stateWordsField cfg).toNat = if cfg.kind = .md then 0 else cfg.S := by
  cases hk : cfg.kind with
  | md => simp [stateWordsField, hk]
  | sponge => simp [stateWordsField, hk, h hk, Nat.mod_eq_of_lt]

/-- The value of CONFIG, field by field (R33). -/
theorem toNat_configReg {cfg : Config} (hc : cfg.Valid) (h : cfg.kind = .sponge → cfg.S < 256) :
    (configReg cfg).toNat = cfg.W / 8 + 2 ^ 8 * cfg.B + 2 ^ 16 * (if cfg.kind = .md then 1 else 0)
      + 2 ^ 17 * (policyCode cfg.inEndian).toNat + 2 ^ 19 * (policyCode cfg.bufEndian).toNat
      + 2 ^ 21 * (policyCode cfg.digestEndian).toNat + 2 ^ 24 * cfg.digestBits
      + 2 ^ 40 * (if cfg.kind = .md then 0 else cfg.S) + 2 ^ 48 * (cfg.tsW / 8) := by
  have hW := hc.W_max
  have hB := hc.B_max
  have hD := hc.digest_max
  have hT := hc.tsW_max
  simp only [configReg, toNat_append_eq_add, toNat_kindBit, toNat_stateWordsField h, BitVec.toNat_ofNat]
  rw [Nat.mod_eq_of_lt (a := cfg.W / 8) (by omega), Nat.mod_eq_of_lt (a := cfg.B) (by omega),
    Nat.mod_eq_of_lt (a := cfg.digestBits) (by omega), Nat.mod_eq_of_lt (a := cfg.tsW / 8) (by omega)]
  omega

theorem policy_mem (pol : Policy) : pol ∈ [Policy.LOLB, .LOBB, .BOLB, .BOBB] := by
  rcases pol with ⟨_ | _, _ | _⟩ <;> decide

theorem toNat_totalSeenChunk (s : State) (k : Nat) :
    (totalSeenChunk s k).toNat = s.totalSeen / 2 ^ (64 * k) % 2 ^ 64 := BitVec.toNat_ofNat _ _

/-- The first `K` digits to the base 2^64 give a number modulo 2^(64K). -/
theorem sum_chunks (n K : Nat) :
    ((List.range K).map fun k => n / 2 ^ (64 * k) % 2 ^ 64 * 2 ^ (64 * k)).sum = n % 2 ^ (64 * K) := by
  induction K with
  | zero => simp [Nat.mod_one]
  | succ K ih =>
    rw [List.range_succ, List.map_append, List.sum_append, ih, Nat.mul_succ, Nat.pow_add, Nat.mod_mul]
    simp [Nat.mul_comm]

/-- Chunk by chunk, the TOTAL_SEEN_k hold all of TOTAL_SEEN (R35). -/
theorem totalSeen_eq_sum_chunks {s : State} (hs : Inv s) :
    s.totalSeen = ((List.range (s.cfg.tsW / 64)).map fun k => (totalSeenChunk s k).toNat * 2 ^ (64 * k)).sum := by
  simp only [toNat_totalSeenChunk]
  rw [sum_chunks, Nat.mul_div_cancel' hs.cfg_valid.tsW_chunks, Nat.mod_eq_of_lt hs.total_lt]

/-! ### The obligations -/

/-- Settles O13, by the six kinds of step; the command that runs is `exec_inv`. -/
theorem everyStepKeepsTheInvariant : Obligations.EveryStepKeepsTheInvariant := by
  intro s hs
  rcases step_cases s with ⟨-, h⟩ | ⟨rest, hin, h⟩ | ⟨rest, hin, h⟩ | ⟨c, rest, -, -, h⟩ | ⟨c, rest, i, hin, -, hd, h⟩ |
    ⟨c, rest, e, hin, -, -, h⟩
  · exact ⟨_, h, hs⟩
  · have hrest := inv_inputs hs hin
    exact ⟨_, h, inv_reset hrest.cfg_valid hrest.buf_shape hrest.inputs_shape (.inr rfl)⟩
  · exact ⟨_, h, inv_deliver (inv_inputs hs hin)⟩
  · exact ⟨_, h, inv_deliver hs⟩
  · have hpayload := hs.inputs_shape c (by simp [hin])
    obtain ⟨t, ht, hinv⟩ := exec_inv (inv_inputs hs hin) (decode_wf hs.cfg_valid hpayload hd)
    exact ⟨t, h.trans ht, hinv⟩
  · exact ⟨_, h, inv_raiseError (inv_inputs hs hin) _⟩

/-- Settles O11, by the six kinds of step; the command that runs is `exec_cfg`. -/
theorem noStepChangesTheConfiguration : Obligations.NoStepChangesTheConfiguration := by
  intro s t ht
  rcases step_cases s with ⟨-, h⟩ | ⟨rest, -, h⟩ | ⟨rest, -, h⟩ | ⟨c, rest, -, -, h⟩ | ⟨c, rest, i, -, -, -, h⟩ |
    ⟨c, rest, e, -, -, -, h⟩
  · cases h.symm.trans ht; rfl
  · cases h.symm.trans ht; rfl
  · cases h.symm.trans ht; exact deliver_cfg _
  · cases h.symm.trans ht; exact deliver_cfg _
  · exact (exec_cfg (h.symm.trans ht) :)
  · cases h.symm.trans ht; rfl

/-- Settles O42: the value is `toNat_statusReg`, the last clause its arithmetic. -/
theorem statusRegisterFields : Obligations.StatusRegisterFields := by
  intro s
  refine ⟨_, statusReg s, exec_readReg_present rfl, rfl, toNat_statusReg s, fun hs => ?_⟩
  have hphase := hs.phase_le_one
  rw [toNat_statusReg, if_neg hs.filled_lt.ne]
  constructor <;> split_ifs <;> omega

/-- Settles O43: the four policies by cases, the register by `toNat_configReg`. -/
theorem configRegisterFields : Obligations.ConfigRegisterFields :=
  ⟨⟨rfl, rfl, rfl, rfl, policy_mem⟩, fun s hc h =>
    ⟨_, configReg s.cfg, exec_readReg_present rfl, rfl, toNat_configReg hc h⟩⟩

/-- Settles O44: each counter fits its register, and the chunks are all digits of TOTAL_SEEN. -/
theorem counterRegisters : Obligations.CounterRegisters := by
  intro s hs
  have hC : s.cfg.C < 2 ^ 64 := hs.cfg_valid.C_max.trans_lt (by decide)
  refine ⟨⟨_, exec_readReg_present rfl, ?_⟩, ⟨_, exec_readReg_present rfl, ?_⟩, ⟨_, exec_readReg_present rfl, ?_⟩,
    fun k hk => ⟨_, exec_readReg_present (decide_eq_true hk), toNat_totalSeenChunk s k⟩, totalSeen_eq_sum_chunks hs⟩
  · exact (BitVec.toNat_ofNat _ _).trans (Nat.mod_eq_of_lt (hs.filled_lt.trans hC))
  · exact (BitVec.toNat_ofNat _ _).trans (Nat.mod_eq_of_lt hC)
  · exact BitVec.toNat_setWidth_of_le (by decide)

/-- Settles O50, command by command: an error writes the error only, a success what its row of R42 lists. -/
theorem commandsWriteOnlyTheirState : Obligations.CommandsWriteOnlyTheirState := by
  intro s i hs hi
  cases i with
  | processWord v bits => exact answers_submit hs bits hs.cfg_valid.W_pos (by simp)
  | processBlock blk bits => exact answers_submit hs bits hs.cfg_valid.C_pos (capacity_le_of_wf hi)
  | result => exact answers_result hs
  | readReg r => exact answers_readReg hi
  | getBlock => exact answers_respondOk _ ⟨rfl, rfl, rfl⟩ ⟨rfl, rfl, rfl, rfl, rfl, rfl, rfl⟩
  | clearErr =>
    exact answers_respondOk _ ⟨rfl, rfl, rfl⟩ ⟨⟨rfl, rfl, rfl, rfl, rfl, rfl, rfl⟩, rfl, rfl, rfl⟩
  | reset =>
    refine answers_respondOk _ ⟨rfl, rfl, rfl⟩
      ⟨rfl, rfl, rfl, resetConstruction_phase _ _, rfl, rfl, rfl, fun hk => ?_, fun hk => ?_⟩
    · simp [resetConstruction_sponge hk]
    · simp [resetConstruction_md hk]

/-- Settles O12; T1 is one valid configuration. -/
theorem invariantHoldsAtReset : Obligations.InvariantHoldsAtReset :=
  ⟨fun _ hc => inv_resetOf hc, t1_valid, inv_resetOf t1_valid⟩

end Sys2Proof.Machine
end

section
/-! Proofs of the statements about the stream mapping (R52) and about the step that runs a command (R62, R70, R81). -/

namespace Sys2Proof.Machine

/-! ### The mapping each policy names (R52) -/

theorem pos_LOLB (W j : Nat) : pos .LOLB W j = j := Nat.div_add_mod j 8

theorem pos_LOBB (W j : Nat) : pos .LOBB W j = 8 * (j / 8) + (7 - j % 8) := rfl

theorem pos_BOLB (W j : Nat) : pos .BOLB W j = W - 8 - 8 * (j / 8) + j % 8 := rfl

/-- Reversing the octets of a word and the bits of each octet reverses the whole word. -/
theorem pos_BOBB {W j : Nat} (hW : 8 ∣ W) (hj : j < W) : pos .BOBB W j = W - 1 - j := by
  change W - 8 - 8 * (j / 8) + (7 - j % 8) = W - 1 - j
  omega

/-! ### The step that runs a command -/

theorem step_command_decoded {s : State} {c : Command} {rest : List HostInput} {i : Instr}
    (hin : s.inputs = .command c :: rest) (hr : s.rsp = none) (hd : decode s.cfg c.word c.payload = .ok i) :
    step s = exec i { s with inputs := rest } :=
  (step_command_accepted hin hr).trans (runCommand_ok (s := { s with inputs := rest }) hd)

/-! ### The statements -/

/-- Settles O15: `pos` is its own inverse, so injective and onto; then the mapping of each policy. -/
theorem streamMappingIsABijection : Obligations.StreamMappingIsABijection := by
  intro W hW
  refine ⟨fun pol => ⟨fun j => pos_lt pol hW, fun j hj j' hj' => pos_inj pol hW hj hj', fun i hi => ?_⟩,
    fun j hj => ⟨pos_LOLB W j, pos_BOBB hW hj, pos_LOBB W j, pos_BOLB W j⟩⟩
  exact ⟨pos pol W i, pos_lt pol hW hi, pos_pos pol hW hi⟩

/-- Settles O8; the probe presents its command with the channel ready, so the first clause's lemma gives the second. -/
theorem stepRunsTheDecodedCommand : Obligations.StepRunsTheDecodedCommand :=
  ⟨fun _ _ _ _ hin hr hd => step_command_decoded hin hr hd,
    fun s nbits w _ hd => step_command_decoded (s := s.withFetchWord nbits w) rfl rfl hd⟩

end Sys2Proof.Machine
end

section
/-! Proofs of the statements about the encoding (R73 to R88) and about the order of the channels (R70, R71). -/

namespace Sys2Proof

variable {cfg : Config} {w : BitVec 32} {p : List Word} {i : Instr}

/-! ### Decoding and encoding -/

/-- The decoder reads back what the encoder wrote (R73, R81). -/
theorem decode_encode (hc : cfg.Valid) (hi : i.wf cfg = true) :
    decode cfg (encode cfg i).word (encode cfg i).payload = .ok i := by
  cases i with
  | processWord v bits => simp [decode, encode, Instr.opcode, Instr.regField, Instr.bitsField, Instr.payload]
  | processBlock blk bits =>
    have htake : blk.take cfg.B = blk := List.take_of_length_le (Word.shaped_iff.1 hi).length.le
    simp [decode, encode, Instr.opcode, Instr.regField, Instr.bitsField, Instr.payload, htake]
  | readReg r =>
    simp [decode, encode, Instr.opcode, Instr.regField, Instr.bitsField, Reg.ofNumber_number hc hi]
  | result | reset | getBlock | clearErr =>
    simp [decode, encode, Instr.opcode, Instr.regField, Instr.bitsField]

/-- An accepted word has the fields its command is encoded with (R74, R80). -/
theorem fields_of_decode (h : decode cfg w p = .ok i) :
    fieldBits w = i.bitsField ∧ fieldRsv w = 0 ∧ fieldReg w = i.regField ∧ fieldOpc w = i.opcode := by
  obtain ⟨hrsv, h⟩ := decode_cases h
  rcases h with ⟨rfl, hopc, hreg⟩ | ⟨rfl, hopc, hreg⟩ | ⟨rfl, hopc, hreg, hbits⟩ | ⟨rfl, hopc, hreg, hbits⟩ |
    ⟨r, rfl, hr, hopc, hbits⟩ | ⟨rfl, hopc, hreg, hbits⟩ | ⟨rfl, hopc, hreg, hbits⟩
  · exact ⟨rfl, hrsv, hreg, hopc⟩
  · exact ⟨rfl, hrsv, hreg, hopc⟩
  · exact ⟨hbits, hrsv, hreg, hopc⟩
  · exact ⟨hbits, hrsv, hreg, hopc⟩
  · exact ⟨hbits, hrsv, (Reg.number_ofNumber hr).1.symm, hopc⟩
  · exact ⟨hbits, hrsv, hreg, hopc⟩
  · exact ⟨hbits, hrsv, hreg, hopc⟩

/-- Encoding what a word decodes to gives the word back (R81, R83). -/
theorem encode_decode (h : decode cfg w p = .ok i) : (encode cfg i).word = w := by
  obtain ⟨hbits, hrsv, hreg, hopc⟩ := fields_of_decode h
  calc (encode cfg i).word = packFields (fieldBits w) (fieldRsv w) (fieldReg w) (fieldOpc w) := by
        rw [hbits, hrsv, hreg, hopc]; rfl
    _ = w := packFields_fields w

/-! ### The opcode map (R80) -/

theorem fieldOpc_and (v w : BitVec 32) : fieldOpc (v &&& w) = fieldOpc v &&& fieldOpc w := BitVec.extractLsb'_and

/-- Every row's mask covers OPC, so a word that matches a row has the row's OPC. -/
theorem OpcodeRow.fieldOpc_of_matches {row : OpcodeRow} (hrow : row ∈ opcodeRows) (h : row.matches w = true) :
    fieldOpc w = fieldOpc row.pattern := by
  have hmask : ∀ row ∈ opcodeRows, fieldOpc row.mask = BitVec.allOnes 4 := by decide
  rw [← eq_of_beq h, fieldOpc_and, hmask row hrow, BitVec.and_allOnes]

/-- Distinct rows have distinct OPCs. -/
theorem opcodeRow_eq_of_fieldOpc_eq : ∀ r₁ ∈ opcodeRows, ∀ r₂ ∈ opcodeRows,
    fieldOpc r₁.pattern = fieldOpc r₂.pattern → r₁ = r₂ := by decide

/-- A command is encoded in a word of its own row. -/
theorem encode_matches_row (cfg : Config) (i : Instr) :
    ∃ row ∈ opcodeRows, row.mnemonic = i.mnemonic ∧ row.matches (encode cfg i).word = true := by
  cases i with
  | processWord v bits => exact Laws.EncodingRow.processWord v bits cfg
  | processBlock blk bits => exact Laws.EncodingRow.processBlock blk bits cfg
  | result => exact Laws.EncodingRow.result cfg
  | reset => exact Laws.EncodingRow.reset cfg
  | readReg r => exact Laws.EncodingRow.readReg r cfg
  | getBlock => exact Laws.EncodingRow.getBlock cfg
  | clearErr => exact Laws.EncodingRow.clearErr cfg

/-! ### The illegal words (R81 to R83) -/

theorem toNat_fieldOpc (w : BitVec 32) : (fieldOpc w).toNat = w.toNat % 16 := by
  simp [fieldOpc]

theorem toNat_fieldReg (w : BitVec 32) : (fieldReg w).toNat = w.toNat / 2 ^ 4 % 256 := by
  simp [fieldReg, Nat.shiftRight_eq_div_pow]

theorem toNat_fieldRsv (w : BitVec 32) : (fieldRsv w).toNat = w.toNat / 2 ^ 12 % 16 := by
  simp [fieldRsv, Nat.shiftRight_eq_div_pow]

theorem toNat_fieldBits (w : BitVec 32) : (fieldBits w).toNat = w.toNat / 2 ^ 16 := by
  have hlt : w.toNat / 2 ^ 16 < 2 ^ 16 := by have := w.isLt; omega
  rw [fieldBits, BitVec.extractLsb'_toNat, Nat.shiftRight_eq_div_pow, Nat.mod_eq_of_lt hlt]

/-- The numbers that are no register: 5, 6, 7 and those past the last TOTAL_SEEN_k (R31). -/
theorem Reg.ofNumber_eq_none {n : BitVec 8} :
    Reg.ofNumber cfg n = none ↔ 4 < n.toNat ∧ ¬ (8 ≤ n.toNat ∧ n.toNat < 8 + cfg.tsW / 64) := by
  unfold Reg.ofNumber
  split
  case h_6 =>
    split
    next hm => simp [hm]
    next hm => exact ⟨fun _ => ⟨by grind, hm⟩, fun _ => rfl⟩
  all_goals
    next hn => simp [hn]

/-- The five conditions of illegality, on the fields (R81). -/
theorem decode_error_iff : (∃ e, decode cfg w p = .error e) ↔
    (fieldOpc w = 0 ∨ 8 ≤ (fieldOpc w).toNat) ∨ fieldRsv w ≠ 0 ∨ (fieldOpc w ≠ 5 ∧ fieldReg w ≠ 0) ∨
    (fieldOpc w ≠ 1 ∧ fieldOpc w ≠ 2 ∧ fieldBits w ≠ 0) ∨
    (fieldOpc w = 5 ∧ Reg.ofNumber cfg (fieldReg w) = none) := by
  by_cases hopc : fieldOpc w = 0 ∨ 8 ≤ (fieldOpc w).toNat
  · exact ⟨fun _ => .inl hopc, fun _ => ⟨_, by rw [decode, if_pos hopc]⟩⟩
  by_cases hrsv : fieldRsv w ≠ 0
  · exact ⟨fun _ => .inr (.inl hrsv), fun _ => ⟨_, by rw [decode, if_neg hopc, if_pos hrsv]⟩⟩
  by_cases hreg : fieldOpc w ≠ 5 ∧ fieldReg w ≠ 0
  · exact ⟨fun _ => .inr (.inr (.inl hreg)), fun _ => ⟨_, by rw [decode, if_neg hopc, if_neg hrsv, if_pos hreg]⟩⟩
  by_cases hbits : fieldOpc w ≠ 1 ∧ fieldOpc w ≠ 2 ∧ fieldBits w ≠ 0
  · exact ⟨fun _ => .inr (.inr (.inr (.inl hbits))),
      fun _ => ⟨_, by rw [decode, if_neg hopc, if_neg hrsv, if_neg hreg, if_pos hbits]⟩⟩
  rw [decode, if_neg hopc, if_neg hrsv, if_neg hreg, if_neg hbits]
  simp only [hopc, hrsv, hreg, hbits, false_or]
  have hopc5 : fieldOpc w = 5 ↔ (fieldOpc w).toNat = 5 := BitVec.toNat_eq
  have hopc0 : fieldOpc w = 0 ↔ (fieldOpc w).toNat = 0 := BitVec.toNat_eq
  rw [hopc0] at hopc
  rw [hopc5]
  split
  case h_5 heq => cases Reg.ofNumber cfg (fieldReg w) <;> simp [heq]
  case h_8 => grind
  all_goals next heq => simp [heq]

/-! ### The assembler (R86) -/

theorem shape_map_ofNat (W : Nat) (ns : List Nat) : Word.Shape W ns.length (ns.map (Word.ofNat W)) := by
  refine ⟨by simp, fun v hv => ?_⟩
  obtain ⟨n, -, rfl⟩ := List.mem_map.1 hv
  simp

end Sys2Proof

namespace Sys2Proof.Machine

variable {cfg : Config}

theorem assembleLine_processW {v bits : Nat} (hbits : bits ≤ 65535) (hv : v < 2 ^ cfg.W) :
    assembleLine cfg (.processW v bits)
      = .ok (encode cfg (.processWord (Word.ofNat cfg.W v) (BitVec.ofNat 16 bits))) := by
  rw [assembleLine, if_neg (by omega), if_neg (by omega)]

theorem assembleLine_processB {ws : List Nat} {bits : Nat} (hbits : bits ≤ 65535) (hlen : ws.length = cfg.B)
    (hws : ∀ v ∈ ws, v < 2 ^ cfg.W) :
    assembleLine cfg (.processB ws bits)
      = .ok (encode cfg (.processBlock (ws.map (Word.ofNat cfg.W)) (BitVec.ofNat 16 bits))) := by
  have hfit : ¬ (ws.any fun v => decide (2 ^ cfg.W ≤ v)) = true := by simpa using hws
  rw [assembleLine, if_neg (by omega), if_neg (not_not.2 hlen), if_neg hfit]

/-! ### The statements -/

/-- Settles O1: the field lemmas of `packFields`, constructor by constructor. -/
theorem decodeOfEncodeIsTheCommand : Obligations.DecodeOfEncodeIsTheCommand :=
  fun _ _ hc hi => decode_encode hc hi

/-- Settles O2: an accepted word has the fields of its command's encoding, and a word is its fields. -/
theorem encodeOfDecodeIsTheWord : Obligations.EncodeOfDecodeIsTheWord :=
  fun _ _ _ _ h => encode_decode h

/-- Settles O3: a row a word matches has the word's OPC, and the word is its command's encoding. -/
theorem opcodeRowsDoNotOverlap : Obligations.OpcodeRowsDoNotOverlap := by
  refine ⟨fun w r₁ r₂ hr₁ hr₂ hw₁ hw₂ => ?_, fun cfg w p i h => ?_⟩
  · exact opcodeRow_eq_of_fieldOpc_eq r₁ hr₁ r₂ hr₂
      ((OpcodeRow.fieldOpc_of_matches hr₁ hw₁).symm.trans (OpcodeRow.fieldOpc_of_matches hr₂ hw₂))
  · exact encode_decode h ▸ encode_matches_row cfg i

/-- Settles O4: the conditions are those of `decode_error_iff`, read as numbers; the step is `raiseError`. -/
theorem illegalWordsAreExactlyTheseAndRaiseIllegalCommand :
    Obligations.IllegalWordsAreExactlyTheseAndRaiseIllegalCommand := by
  refine ⟨fun cfg w p => ?_, fun s c rest e hin hr hd => ?_⟩
  · rw [decode_error_iff, Reg.ofNumber_eq_none]
    simp only [ne_eq, ← BitVec.toNat_inj, toNat_fieldOpc, toNat_fieldReg, toNat_fieldRsv, toNat_fieldBits]
    exact Iff.rfl
  · exact (step_command_accepted hin hr).trans (runCommand_illegal (s := { s with inputs := rest }) hd)

/-- Settles O6: what is refused by the branches of `assembleLine`, what is passed by `decode_encode`. -/
theorem assemblerChecksCountsAndBlockLength : Obligations.AssemblerChecksCountsAndBlockLength := by
  intro cfg hc
  refine ⟨fun v bits h => if_pos h, fun ws bits h => if_pos h, fun ws bits h hlen => ?_, fun v bits h hv => ?_,
    fun ws bits h hlen hws => ?_⟩
  · rw [assembleLine, if_neg (by omega), if_pos hlen]
  · exact ⟨_, assembleLine_processW h hv, decode_encode hc (by simp [Instr.wf]), Word.toNat_ofNat cfg.W v hv⟩
  · exact ⟨_, assembleLine_processB h hlen hws,
      decode_encode hc (Word.shaped_iff.2 (hlen ▸ shape_map_ofNat cfg.W ws))⟩

/-- Settles O5: the decoder computes each row of R88, whatever the two payload words are. -/
theorem specCommandWordsDecode : Obligations.SpecCommandWordsDecode := by
  intro v v'
  exact ⟨rfl, rfl, rfl, rfl, rfl, rfl, rfl, rfl, rfl, rfl, rfl, rfl, rfl, rfl, rfl, rfl, rfl, rfl⟩

/-- Settles O7: each expansion of R87 is an equation of `AsmLine.expand`. -/
theorem pseudoCommandsExpandAsListed : Obligations.PseudoCommandsExpandAsListed :=
  fun _ _ _ => ⟨rfl, rfl, rfl, rfl, rfl, rfl⟩

/-- Settles O9, by what a step does with each input. -/
theorem oneCommandAtATime : Obligations.OneCommandAtATime := by
  refine ⟨fun s c rest r hin hr => ?_, fun s rest r hin hr => ?_, fun s rest hin hr => ?_, fun s => step_idle⟩
  · rw [step_command_waits hin hr, deliver_some hr]
  · rw [step_takeResponse hin, deliver_some (s := { s with inputs := rest }) hr]
  · rw [step_takeResponse hin, deliver_none (s := { s with inputs := rest }) hr]

end Sys2Proof.Machine
end

section
/-! The response of every command (R71, R78, R79): its shape, with the length of RESULT's digest (R177, R178). -/

namespace Sys2Proof.Machine

/-! ### The length of a digest -/

section

variable {cfg : Config}

/-- The squeezed words hold at least DIGEST_BITS bits (R176). -/
theorem digestBits_le_squeezed (hc : cfg.Valid) : cfg.digestBits ≤ nSqueeze cfg * cfg.B * cfg.W := by
  have hC := hc.C_pos
  have hdiv := Nat.div_add_mod (cfg.digestBits + cfg.C - 1) cfg.C
  have hmod := Nat.mod_lt (cfg.digestBits + cfg.C - 1) hC
  calc cfg.digestBits ≤ cfg.C * nSqueeze cfg := by rw [nSqueeze]; omega
    _ = nSqueeze cfg * cfg.B * cfg.W := by rw [Config.C]; ring

/-- PACK returns at least DIGEST_OCTETS octets when its words hold as many (R186, R187). -/
theorem digestOctets_le_length_packWords (hW : 8 ∣ cfg.W) {words : List Word} {octs : List Octet}
    (hwords : cfg.digestBits ≤ words.length * cfg.W) (h : packWords cfg words = .ok octs) :
    digestOctets cfg ≤ octs.length := by
  unfold packWords at h
  split at h
  · cases (packDefault_ok hW words).symm.trans h
    simpa [digestOctets] using Nat.div_le_div_right hwords
  · cases h
    rw [List.length_append, List.length_replicate]
    omega

theorem length_squeezeDigest (hc : cfg.Valid) (hk : cfg.kind = .sponge) {c : Construction}
    (hsw : Word.Shape cfg.W cfg.S c.sw) {d : List Octet} (h : squeezeDigest cfg c = .ok d) :
    d.length = digestOctets cfg := by
  unfold squeezeDigest at h
  split at h
  next octs hocts =>
    cases h
    have hlen := (length_squeezeN (hc.S_min hk) (nSqueeze cfg) hsw).length
    have hle := digestOctets_le_length_packWords hc.W_octets (hlen ▸ digestBits_le_squeezed hc) hocts
    simpa using hle
  · cases h

theorem shape_foldl_absorb (blocks : List (List Word)) {c : Construction} (h : Word.Shape cfg.W cfg.S c.sw) :
    Word.Shape cfg.W cfg.S (blocks.foldl (absorb cfg) c).sw := by
  induction blocks generalizing c with
  | nil => exact h
  | cons blk blocks ih => exact ih (shape_absorb c blk)

/-- DIGEST answers DIGEST_OCTETS octets (R177, R178). -/
theorem length_digest (hc : cfg.Valid) (hk : cfg.kind = .sponge) {c : Construction}
    (hsw : Word.Shape cfg.W cfg.S c.sw) {blk : List Word} {bf : Nat} {d : List Octet}
    (h : digest cfg c blk bf = .ok d) : d.length = digestOctets cfg := by
  unfold digest at h
  split at h
  · exact length_squeezeDigest hc hk (shape_absorb c blk) h
  · unfold absorbWithPadding at h
    dsimp only at h
    split_ifs at h
    exact length_squeezeDigest hc hk (shape_foldl_absorb _ hsw) h

/-- MD_DIGEST answers DIGEST_OCTETS octets (R191, R192). -/
theorem length_mdDigest (c : Construction) (blk : List Word) (total : Nat) :
    (mdDigest cfg c blk total).length = digestOctets cfg := by
  simp [mdDigest, mdFinal]

end

/-! ### The response of a command -/

/-- The shape of `rsp_data` in a command's OK response (R78). -/
def FitsCommand (cfg : Config) (i : Instr) (data : RspData) : Prop :=
  match i with
  | .processWord _ _ | .processBlock _ _ | .reset | .clearErr => data = .empty
  | .result => ∃ d, data = .digest d ∧ d.length = cfg.digestBits / 8
  | .readReg _ => ∃ v, data = .value v
  | .getBlock => ∃ ws, data = .block ws ∧ Word.Shape cfg.W cfg.B ws

/-- The outcome of command `i` in `s` is one response: an error's, or an OK one whose data fits the command. -/
def RespondsTo (s : State) (i : Instr) (o : Host.Outcome State Fault Refusal) : Prop :=
  (∃ c, o = .next (raiseError c s)) ∨
  ∃ u data, o = .next (respondOk data u) ∧ SameHost s u ∧ FitsCommand s.cfg i data

variable {s : State}

theorem respondsTo_submit (hs : Inv s) {i : Instr} (hi : FitsCommand s.cfg i .empty) {src : List Word} {width : Nat}
    (bits : BitVec 16) (hw : 0 < width) (hsrc : width ≤ src.length * s.cfg.W) :
    RespondsTo s i (submit src width bits s) := by
  rcases submit_cases hs bits hw hsrc with ⟨-, h⟩ | ⟨-, -, h⟩ | ⟨-, -, buf, draws, h, -, -⟩
  · exact .inl ⟨_, h⟩
  · exact .inl ⟨_, h⟩
  · exact .inr ⟨_, _, h, ⟨rfl, rfl, rfl⟩, hi⟩

theorem respondsTo_result (hs : Inv s) : RespondsTo s .result (execResult s) := by
  cases hk : s.cfg.kind with
  | md => exact .inr ⟨_, _, execResult_md hk, .refl s, _, rfl, length_mdDigest _ _ _⟩
  | sponge =>
    rcases execResult_sponge hk hs.cfg_valid.W_octets hs.filled_lt.ne with ⟨-, h⟩ | ⟨-, d, hd, h⟩
    · exact .inl ⟨_, h⟩
    · exact .inr ⟨_, _, h, .refl s, d, rfl, length_digest hs.cfg_valid hk (hs.sw_shape hk) hd⟩

/-- Every well-formed command ends with one response of its shape (R71, R78). -/
theorem exec_respondsTo (hs : Inv s) {i : Instr} (hi : i.wf s.cfg = true) : RespondsTo s i (exec i s) := by
  cases i with
  | processWord v bits => exact respondsTo_submit (i := .processWord v bits) hs rfl bits hs.cfg_valid.W_pos (by simp)
  | processBlock blk bits =>
    exact respondsTo_submit (i := .processBlock blk bits) hs rfl bits hs.cfg_valid.C_pos (capacity_le_of_wf hi)
  | result => exact respondsTo_result hs
  | reset => exact .inr ⟨_, _, rfl, ⟨rfl, rfl, rfl⟩, rfl⟩
  | readReg r => exact .inr ⟨_, _, execReadReg_present hi, .refl s, _, rfl⟩
  | getBlock => exact .inr ⟨_, _, rfl, ⟨rfl, rfl, rfl⟩, _, rfl, shape_readBlock hs.buf_shape⟩
  | clearErr => exact .inr ⟨_, _, rfl, ⟨rfl, rfl, rfl⟩, rfl⟩

/-- An accepted command word is illegal or a command that responds. -/
theorem runCommand_cases (hs : Inv s) {c : Command} (hp : Word.Shape s.cfg.W s.cfg.B c.payload) :
    (∃ cause, runCommand c s = .next (raiseError cause s)) ∨
    ∃ i u data, decode s.cfg c.word c.payload = .ok i ∧ runCommand c s = .next (respondOk data u) ∧ SameHost s u ∧
      FitsCommand s.cfg i data := by
  cases hd : decode s.cfg c.word c.payload with
  | error e => exact .inl ⟨_, runCommand_illegal hd⟩
  | ok i =>
    rcases exec_respondsTo hs (decode_wf hs.cfg_valid hp hd) with ⟨cause, h⟩ | ⟨u, data, h, hu, hfits⟩
    · exact .inl ⟨cause, (runCommand_ok hd).trans h⟩
    · exact .inr ⟨i, u, data, rfl, (runCommand_ok hd).trans h, hu, hfits⟩

/-- Settles O10, by the two ways a command ends: `raiseError` on the state before it, or `respondOk`. -/
theorem everyAcceptedCommandHasOneResponse : Obligations.EveryAcceptedCommandHasOneResponse := by
  intro s c hs _ hp
  rcases runCommand_cases hs hp with ⟨cause, h⟩ | ⟨i, u, data, hd, h, hu, hfits⟩
  · exact ⟨_, _, h, rfl, rfl, rfl, rfl, fun _ => ⟨rfl, rfl, rfl⟩, fun hok => absurd hok (causeCode_ne_ok cause)⟩
  · exact ⟨_, _, h, rfl, hu.delivered, hu.inputs, hu.cfg, fun herr => absurd rfl herr, fun _ => ⟨i, hd, hfits⟩⟩

end Sys2Proof.Machine
end

section
/-! What a stale bit can do (R105, R184, R226): nothing to any command's effect or answer; and where APPEND writes
(R102, R104). -/

namespace Sys2Proof.Machine

/-! ### The collaborators read the valid bits only (R192, R203) -/

section

variable {cfg : Config} {blk blk' : List Word}

theorem pad101_congr {bf : Nat} (h : streamBits cfg.bufEndian cfg.W blk bf = streamBits cfg.bufEndian cfg.W blk' bf) :
    pad101 cfg blk bf = pad101 cfg blk' bf := by
  have hcopied : writeStream cfg.bufEndian cfg.W (Word.zeros cfg.W cfg.B) 0 (streamBit cfg.bufEndian cfg.W blk) bf
      = writeStream cfg.bufEndian cfg.W (Word.zeros cfg.W cfg.B) 0 (streamBit cfg.bufEndian cfg.W blk') bf :=
    writeStream_congr fun _ hk => streamBit_eq_of_streamBits_eq h hk
  simp only [pad101, hcopied]

/-- PAD depends on the first `bf` stream bits only (R203). -/
theorem pad_congr {bf : Nat} (h : streamBits cfg.bufEndian cfg.W blk bf = streamBits cfg.bufEndian cfg.W blk' bf) :
    pad cfg blk bf = pad cfg blk' bf := by
  simp only [pad, pad101_congr h, h]

/-- DIGEST of a block that is not full depends on its valid bits only (R184). -/
theorem digest_congr {bf : Nat} (hbf : bf ≠ cfg.C) (c : Construction)
    (h : streamBits cfg.bufEndian cfg.W blk bf = streamBits cfg.bufEndian cfg.W blk' bf) :
    digest cfg c blk bf = digest cfg c blk' bf := by
  simp only [digest, if_neg hbf, absorbWithPadding, pad_congr h]

/-- MD_DIGEST depends on the bits of the last, partial block only (R192). -/
theorem mdDigest_congr (c : Construction) {total : Nat}
    (h : streamBits cfg.bufEndian cfg.W blk (total % cfg.C) = streamBits cfg.bufEndian cfg.W blk' (total % cfg.C)) :
    mdDigest cfg c blk total = mdDigest cfg c blk' total := by
  simp only [mdDigest, mdFinal, h]

end

/-! ### Commands from two states that differ in stale bits only -/

variable {s s' : State}

theorem SameButStale.exists_eq (h : SameButStale s s') :
    ∃ buf draws, s' = { s with buf := buf, draws := draws } ∧
      streamBits s.cfg.bufEndian s.cfg.W buf s.filled = validBits s := by
  obtain ⟨hrest, hvalid⟩ := h
  rw [hrest] at hvalid
  exact ⟨_, _, hrest, hvalid⟩

theorem SameButStale.cfg_eq (h : SameButStale s s') : s'.cfg = s.cfg := by
  obtain ⟨buf, draws, rfl, -⟩ := h.exists_eq
  rfl

theorem SameButStale.rsp_eq (h : SameButStale s s') : s'.rsp = s.rsp := by
  obtain ⟨buf, draws, rfl, -⟩ := h.exists_eq
  rfl

theorem SameButStale.dropRsp (h : SameButStale s s') :
    SameButStale { s with rsp := none } { s' with rsp := none } := by
  obtain ⟨buf, draws, rfl, hvalid⟩ := h.exists_eq
  exact ⟨rfl, hvalid⟩

/-- Both outcomes are next states, and these differ in stale bits only: they offer one response. -/
def AgreeButStale (o o' : Host.Outcome State Fault Refusal) : Prop :=
  ∃ t t', o = .next t ∧ o' = .next t' ∧ SameButStale t t'

/-- Responding alike keeps two states alike. -/
theorem agreeButStale_respondOk (h : SameButStale s s') (d : RspData) :
    AgreeButStale (.next (respondOk d s)) (.next (respondOk d s')) := by
  obtain ⟨buf, draws, rfl, hvalid⟩ := h.exists_eq
  exact ⟨_, _, rfl, rfl, rfl, hvalid⟩

/-- Raising one error keeps two states alike. -/
theorem agreeButStale_raiseError (h : SameButStale s s') (c : Cause) :
    AgreeButStale (.next (raiseError c s)) (.next (raiseError c s')) := by
  obtain ⟨buf, draws, rfl, hvalid⟩ := h.exists_eq
  exact ⟨_, _, rfl, rfl, rfl, hvalid⟩

/-- PROCESS takes in the message bits and the valid ones; its checks read no bit of BUF (R144, R146). -/
theorem agreeButStale_submit (hs : Inv s) (hs' : Inv s') (h : SameButStale s s') {src : List Word} {width : Nat}
    (bits : BitVec 16) (hw : 0 < width) (hsrc : width ≤ src.length * s.cfg.W) :
    AgreeButStale (submit src width bits s) (submit src width bits s') := by
  obtain ⟨buf, draws, rfl, hvalid⟩ := h.exists_eq
  cases hl : lengthInvalid width bits with
  | true =>
    rw [submit_invalidLength hl, submit_invalidLength hl]
    exact agreeButStale_raiseError h _
  | false =>
    cases ho : lengthOverflows s.cfg s.totalSeen (effectiveBits width bits) with
    | true =>
      rw [submit_lengthOverflow hl ho, submit_lengthOverflow (s := { s with buf := buf, draws := draws }) hl ho]
      exact agreeButStale_raiseError h _
    | false =>
      have hn := (effectiveBits_bounds hw hl).2.trans hsrc
      obtain ⟨b, d, he, -, hb⟩ := submit_ok hs.cfg_valid hs.buf_shape hs.filled_lt hn hl ho
      obtain ⟨b', d', he', -, hb'⟩ := submit_ok hs'.cfg_valid hs'.buf_shape hs'.filled_lt hn hl ho
      rw [h.valid] at he' hb'
      exact ⟨_, _, he, he', rfl, hb'.trans hb.symm⟩

/-- RESULT computes a digest or raises PAD_CONTRACT (R174). -/
theorem resultDigest_cases (hW : 8 ∣ s.cfg.W) :
    resultDigest s = .error (.raise .padContract) ∨ ∃ d, resultDigest s = .ok d := by
  unfold resultDigest
  split
  · rcases digest_cases hW s.con s.buf s.filled with ⟨-, -, h⟩ | ⟨-, h⟩
    · exact .inl h
    · exact .inr h
  · exact .inr ⟨_, rfl⟩

/-- The digest of RESULT depends on the valid bits only: FILLED < C, and TOTAL_SEEN mod C is FILLED (R37, R38). -/
theorem resultDigest_congr (hs : Inv s) (h : SameButStale s s') : resultDigest s' = resultDigest s := by
  obtain ⟨buf, draws, rfl, hvalid⟩ := h.exists_eq
  have hdigest := digest_congr hs.filled_lt.ne s.con hvalid
  have htail : streamBits s.cfg.bufEndian s.cfg.W buf (s.totalSeen % s.cfg.C)
      = streamBits s.cfg.bufEndian s.cfg.W s.buf (s.totalSeen % s.cfg.C) := by
    rw [hs.length_inv]
    exact hvalid
  have hmd := mdDigest_congr s.con htail
  simp only [resultDigest, hdigest, hmd]

theorem agreeButStale_result (hs : Inv s) (h : SameButStale s s') : AgreeButStale (execResult s) (execResult s') := by
  rw [execResult, execResult, resultDigest_congr hs h]
  rcases resultDigest_cases hs.cfg_valid.W_octets with hd | ⟨d, hd⟩
  · rw [hd]
    exact agreeButStale_raiseError h _
  · rw [hd]
    exact agreeButStale_respondOk h _

/-- No register shows a bit of BUF (R31). -/
theorem regValue_congr (h : SameButStale s s') (r : Reg) : regValue s' r = regValue s r := by
  obtain ⟨buf, draws, rfl, -⟩ := h.exists_eq
  cases r <;> rfl

/-- RESET leaves no valid bit to differ in (R160). -/
theorem sameButStale_resetAccumulator (h : SameButStale s s') :
    SameButStale (resetAccumulator s) (resetAccumulator s') := by
  obtain ⟨buf, draws, rfl, -⟩ := h.exists_eq
  exact ⟨rfl, rfl⟩

theorem sameButStale_acknowledgeError (h : SameButStale s s') :
    SameButStale (acknowledgeError s) (acknowledgeError s') := by
  obtain ⟨buf, draws, rfl, hvalid⟩ := h.exists_eq
  exact ⟨rfl, hvalid⟩

/-- Every command but GET_BLOCK acts and answers alike from two states that differ in stale bits only (R105, R184). -/
theorem exec_agreeButStale (hs : Inv s) (hs' : Inv s') (h : SameButStale s s') {i : Instr} (hi : i.wf s.cfg = true)
    (hne : i ≠ .getBlock) : AgreeButStale (exec i s) (exec i s') := by
  have hcfg := h.cfg_eq
  cases i with
  | processWord v bits =>
    rw [exec_processWord, exec_processWord, hcfg]
    exact agreeButStale_submit hs hs' h bits hs.cfg_valid.W_pos (by simp)
  | processBlock blk bits =>
    rw [exec_processBlock, exec_processBlock, hcfg]
    exact agreeButStale_submit hs hs' h bits hs.cfg_valid.C_pos (capacity_le_of_wf hi)
  | result => exact agreeButStale_result hs h
  | reset => exact agreeButStale_respondOk (sameButStale_resetAccumulator h) _
  | readReg r =>
    rw [exec_readReg_present hi, exec_readReg_present (hcfg ▸ hi), regValue_congr h]
    exact agreeButStale_respondOk h _
  | getBlock => exact absurd rfl hne
  | clearErr => exact agreeButStale_respondOk (sameButStale_acknowledgeError h) _

/-- The blocks two such states read agree on the valid bits (R226). -/
theorem streamBit_readBlock_congr (hs : Inv s) (hs' : Inv s') (h : SameButStale s s') {p : Nat} (hp : p < s.filled) :
    streamBit s.cfg.bufEndian s.cfg.W (readBlock s) p = streamBit s.cfg.bufEndian s.cfg.W (readBlock s') p := by
  obtain ⟨buf, draws, rfl, hvalid⟩ := h.exists_eq
  have hpC := hp.trans hs.filled_lt
  have hread := streamBit_readBlock hs.cfg_valid hs.buf_shape hs.filled_lt.le hpC
  have hread' := streamBit_readBlock hs'.cfg_valid hs'.buf_shape hs'.filled_lt.le hpC
  rw [if_pos hp] at hread hread'
  rw [hread, hread', streamBit_eq_of_streamBits_eq hvalid hp]

/-- Settles O55: GET_BLOCK by the valid bits it returns, every other command by `exec_agreeButStale`. -/
theorem staleBitsAffectNothing : Obligations.StaleBitsAffectNothing := by
  intro s s' i hs hs' h hi
  by_cases hg : i = .getBlock
  · subst hg
    refine ⟨_, _, rfl, rfl, ?_, fun hne => absurd rfl hne,
      fun _ => ⟨_, _, rfl, rfl, fun p hp => streamBit_readBlock_congr hs hs' h hp⟩⟩
    obtain ⟨buf, draws, rfl, hvalid⟩ := h.exists_eq
    exact ⟨rfl, hvalid⟩
  · obtain ⟨t, t', ht, ht', hsame⟩ := exec_agreeButStale hs hs' h hi hg
    exact ⟨t, t', ht, ht', hsame.dropRsp, fun _ => hsame.rsp_eq, fun h => absurd h hg⟩

/-! ### APPEND, bit by bit -/

/-- BUF after an APPEND that fits: the source bits at the cursor, free values above them (R102). -/
def appendedBuf (src : List Word) (n soff : Nat) (s : State) : List Word :=
  redrawFrom s.cfg
    (writeStream s.cfg.bufEndian s.cfg.W s.buf s.filled (fun k => streamBit s.cfg.inEndian s.cfg.W src (soff + k)) n)
    (s.filled + n) s.draws

variable {src : List Word} {n soff : Nat}

theorem append_eq_appendedBuf (hb : Word.Shape s.cfg.W s.cfg.B s.buf) (hn : s.filled + n ≤ s.cfg.C)
    (hsrc : soff + n ≤ src.length * s.cfg.W) :
    append src n soff s
      = .ok { s with buf := appendedBuf src n soff s, filled := s.filled + n, draws := s.draws + s.cfg.C } := by
  have hdst : s.filled + n ≤ s.buf.length * s.cfg.W := by rw [hb.length]; exact hn
  rw [append, if_neg (Nat.not_lt.2 hn), inject_ok hsrc hdst]
  rfl

theorem shape_appendedBuf (hb : Word.Shape s.cfg.W s.cfg.B s.buf) :
    Word.Shape s.cfg.W s.cfg.B (appendedBuf src n soff s) :=
  shape_redrawFrom (shape_writeStream hb _ _ _) _ _

/-- Three ranges: the valid bits stay, the source bits follow, free values fill the rest (R102, R105). -/
theorem streamBit_appendedBuf (hc : s.cfg.Valid) (hb : Word.Shape s.cfg.W s.cfg.B s.buf)
    (hn : s.filled + n ≤ s.cfg.C) {p : Nat} (hp : p < s.cfg.C) :
    streamBit s.cfg.bufEndian s.cfg.W (appendedBuf src n soff s) p
      = if p < s.filled then streamBit s.cfg.bufEndian s.cfg.W s.buf p
        else if p < s.filled + n then streamBit s.cfg.inEndian s.cfg.W src (soff + (p - s.filled))
        else Config.freeBit (s.draws + p) := by
  rw [appendedBuf, streamBit_redrawFrom hc (shape_writeStream hb _ _ _) hn _ hp,
    streamBit_writeStream hc.W_octets hb _ _ hn]
  by_cases hvalid : p < s.filled
  · rw [if_pos (by omega), if_neg (by omega), if_pos hvalid]
  · by_cases hnew : p < s.filled + n
    · rw [if_pos hnew, if_pos ⟨Nat.not_lt.1 hvalid, hnew⟩, if_neg hvalid, if_pos hnew]
    · rw [if_neg hnew, if_neg hvalid, if_neg hnew]

/-- Settles O20: the three clauses on bits are the three ranges of `streamBit_appendedBuf`. -/
theorem appendWritesTheBitsAtTheCursor : Obligations.AppendWritesTheBitsAtTheCursor := by
  intro s src n soff hc hb hsrc
  refine ⟨fun hn => ⟨_, append_eq_appendedBuf hb hn hsrc, rfl, shape_appendedBuf hb, fun p hp => ?_, fun k hk => ?_,
    fun p hp hpC => ?_⟩, append_capacity⟩
  · exact (streamBit_appendedBuf hc hb hn (by omega)).trans (if_pos hp)
  · rw [streamBit_appendedBuf hc hb hn (by omega), if_neg (by omega), if_pos (by omega), Nat.add_sub_cancel_left]
  · rw [streamBit_appendedBuf hc hb hn hpC, if_neg (by omega), if_neg (by omega)]

end Sys2Proof.Machine
end

section
/-! Proofs of the statements about INJECT: the range it copies (R120 to R123, R128), whole words under one policy (R126)
and a whole word between two policies (R127). -/

namespace Sys2Proof.Machine

/-! ### What an INJECT that is not refused answers -/

section

variable {src dst out : List Word} {spol dpol : Policy} {Ws Wd n doff soff m : Nat}

theorem inject_eq_ok (h : inject src spol Ws n dst dpol Wd doff soff = .ok out) :
    doff + n ≤ dst.length * Wd ∧ out = writeStream dpol Wd dst doff (fun k => streamBit spol Ws src (soff + k)) n := by
  by_cases hpre : soff + n ≤ src.length * Ws ∧ doff + n ≤ dst.length * Wd
  · rw [inject_ok hpre.1 hpre.2] at h
    exact ⟨hpre.2, (Except.ok.inj h).symm⟩
  · rw [inject_refused hpre] at h
    cases h

theorem shape_inject (hdst : Word.Shape Wd m dst) (h : inject src spol Ws n dst dpol Wd doff soff = .ok out) :
    Word.Shape Wd m out := by
  obtain ⟨-, rfl⟩ := inject_eq_ok h
  exact shape_writeStream hdst _ _ _

/-- The copied range holds the source bits and every other position what it held (R120, R121). -/
theorem streamBit_inject (hW : 8 ∣ Wd) (hdst : Word.Shape Wd m dst)
    (h : inject src spol Ws n dst dpol Wd doff soff = .ok out) (q : Nat) :
    streamBit dpol Wd out q =
      if doff ≤ q ∧ q < doff + n then streamBit spol Ws src (soff + (q - doff)) else streamBit dpol Wd dst q := by
  obtain ⟨hrange, rfl⟩ := inject_eq_ok h
  exact streamBit_writeStream hW hdst _ _ (hdst.length ▸ hrange) q

end

/-! ### Whole words under one policy (R126) -/

/-- A word lies in an aligned range of bits when its number lies in the range of words. -/
theorem word_mem_range_iff {W b k i j : Nat} (hj : j < W) :
    (b * W ≤ i * W + j ∧ i * W + j < b * W + k * W) ↔ b ≤ i ∧ i < b + k := by
  have hW : 0 < W := by omega
  have hdiv : (i * W + j) / W = i := by
    rw [Nat.mul_comm, Nat.mul_add_div hW, Nat.div_eq_of_lt hj, Nat.add_zero]
  rw [← Nat.add_mul, ← Nat.le_div_iff_mul_le hW, ← Nat.div_lt_iff_lt_mul hW, hdiv]

theorem getD_inject_aligned {src dst out : List Word} {pol : Policy} {W a b k n m : Nat} (hW : 8 ∣ W)
    (hsrc : Word.Shape W n src) (hdst : Word.Shape W m dst) (ha : a + k ≤ n)
    (h : inject src pol W (k * W) dst pol W (b * W) (a * W) = .ok out) {i : Nat} (hi : i < m) :
    out.getD i [] = if b ≤ i ∧ i < b + k then src.getD (a + (i - b)) [] else dst.getD i [] := by
  have hout : (out.getD i []).length = W := (shape_inject hdst h).width hi
  have hpos {j : Nat} (hj : j < W) := word_mem_range_iff (b := b) (k := k) (i := i) (pos_lt pol hW hj)
  by_cases hr : b ≤ i ∧ i < b + k
  · rw [if_pos hr]
    refine Word.ext_bit (hout.trans (hsrc.width (by omega)).symm) fun j hj => ?_
    rw [hout] at hj
    have hoff : a * W + (i * W + pos pol W j - b * W) = (a + (i - b)) * W + pos pol W j := by
      have hbi := Nat.mul_le_mul_right W hr.1
      rw [Nat.add_mul, Nat.sub_mul]
      omega
    rw [← streamBit_word (pol := pol) hW hj, streamBit_inject hW hdst h, if_pos ((hpos hj).2 hr), hoff,
      streamBit_word hW hj]
  · rw [if_neg hr]
    refine Word.ext_bit (hout.trans (hdst.width hi).symm) fun j hj => ?_
    rw [hout] at hj
    rw [← streamBit_word (pol := pol) hW hj, streamBit_inject hW hdst h, if_neg (mt (hpos hj).1 hr),
      streamBit_word hW hj]

/-- Over whole arrays of one shape and under one policy INJECT is an assignment (R126). -/
theorem inject_whole {src dst : List Word} {pol : Policy} {W n : Nat} (hW : 8 ∣ W) (hsrc : Word.Shape W n src)
    (hdst : Word.Shape W n dst) : inject src pol W (n * W) dst pol W 0 0 = .ok src := by
  obtain ⟨out, h⟩ : ∃ out, inject src pol W (n * W) dst pol W 0 0 = .ok out :=
    ⟨_, inject_ok (by rw [hsrc.length, Nat.zero_add]) (by rw [hdst.length, Nat.zero_add])⟩
  rw [h]
  congr 1
  refine ext_streamBit (pol := pol) hW (shape_inject hdst h) hsrc fun p hp => ?_
  rw [streamBit_inject hW hdst h, if_pos (by omega), Nat.zero_add, Nat.sub_zero]

/-! ### A whole word between two policies (R127) -/

/-- The policy of the permutation between two policies: an order is little where the two agree and big where they
differ. -/
def relativePolicy (pol pol' : Policy) : Policy where
  octet := if pol.octet = pol'.octet then .little else .big
  bit := if pol.bit = pol'.bit then .little else .big

/-- The mappings of R52 compose to the mapping of the relative policy. -/
theorem pos_pos_relativePolicy (pol pol' : Policy) {W j : Nat} (hW : 8 ∣ W) (hj : j < W) :
    pos pol W (pos pol' W j) = pos (relativePolicy pol pol') W j := by
  obtain ⟨m, rfl⟩ := hW
  rcases pol with ⟨_ | _, _ | _⟩ <;> rcases pol' with ⟨_ | _, _ | _⟩ <;> simp [pos, relativePolicy] <;> omega

theorem bit_inject_word {W : Nat} {v d out : Word} {pol pol' : Policy} (hW : 8 ∣ W) (hd : d.length = W)
    (h : inject [v] pol W W [d] pol' W 0 0 = .ok [out]) {i : Nat} (hi : i < W) :
    out.bit i = v.bit (pos (relativePolicy pol pol') W i) := by
  have hpos := pos_lt pol' hW hi
  calc out.bit i = streamBit pol' W [out] (pos pol' W i) := by
        simpa using (streamBit_word (pol := pol') (arr := [out]) hW hi 0).symm
    _ = streamBit pol W [v] (pos pol' W i) := by
        rw [streamBit_inject hW (Word.shape_singleton hd) h, if_pos (by omega), Nat.zero_add, Nat.sub_zero]
    _ = v.bit (pos pol W (pos pol' W i)) := by
        rw [streamBit, Nat.div_eq_of_lt hpos, Nat.mod_eq_of_lt hpos, List.getD_cons_zero]
    _ = v.bit (pos (relativePolicy pol pol') W i) := by rw [pos_pos_relativePolicy pol pol' hW hi]

theorem length_inject_word {W : Nat} {v d out : Word} {pol pol' : Policy} (hd : d.length = W)
    (h : inject [v] pol W W [d] pol' W 0 0 = .ok [out]) : out.length = W :=
  (shape_inject (Word.shape_singleton hd) h).2 out (List.mem_singleton_self out)

theorem exists_inject_word {W : Nat} {v d : Word} (hd : d.length = W) (pol pol' : Policy) :
    ∃ out : Word, out.length = W ∧ inject [v] pol W W [d] pol' W 0 0 = .ok [out] := by
  obtain ⟨ws, h⟩ : ∃ ws, inject [v] pol W W [d] pol' W 0 0 = .ok ws := ⟨_, inject_ok (by simp) (by simp)⟩
  obtain ⟨out, rfl⟩ := List.length_eq_one_iff.1 (shape_inject (Word.shape_singleton hd) h).length
  exact ⟨out, length_inject_word hd h, h⟩

/-! ### The statements -/

/-- Settles O16. -/
theorem injectCopiesExactlyTheRange : Obligations.InjectCopiesExactlyTheRange := by
  intro src dst spol dpol Ws Wd n doff soff m hW hdst
  rw [← hdst.length]
  refine ⟨fun hs hd => ?_, inject_refused⟩
  have h := inject_ok (spol := spol) (dpol := dpol) hs hd
  exact ⟨_, h, hdst.length.symm ▸ shape_inject hdst h, streamBit_inject hW hdst h⟩

/-- Settles O17: both sides are writes of a range, and `writeStream_add` joins them. -/
theorem adjacentInjectsCompose : Obligations.AdjacentInjectsCompose := by
  intro src dst spol dpol Ws Wd n₁ n₂ doff soff m hdst hs hd
  rw [← hdst.length] at hd
  refine ⟨_, _, inject_ok (by omega) (by omega), ?_, inject_ok hs hd⟩
  rw [inject_ok (by omega) (by rw [length_writeStream]; omega), ← writeStream_add]
  simp only [Nat.add_assoc]

/-- Settles O18: the words of an aligned range, and whole arrays. -/
theorem alignedInjectCopiesWholeWords : Obligations.AlignedInjectCopiesWholeWords := by
  intro src dst pol W a b k n m hW _ hsrc hdst ha hb
  refine ⟨?_, fun hnm => inject_whole hW hsrc (hnm ▸ hdst)⟩
  have h := inject_ok (src := src) (dst := dst) (spol := pol) (dpol := pol)
    (by rw [hsrc.length, ← Nat.add_mul]; exact Nat.mul_le_mul_right W ha)
    (by rw [hdst.length, ← Nat.add_mul]; exact Nat.mul_le_mul_right W hb)
  refine ⟨_, h, (shape_inject hdst h).length, fun i hi => ?_, fun i hi hr => ?_⟩
  · rw [getD_inject_aligned hW hsrc hdst ha h (by omega), if_pos (by omega), Nat.add_sub_cancel_left]
  · rw [getD_inject_aligned hW hsrc hdst ha h hi, if_neg hr]

/-- Settles O19: each pair of policies reads the source word through the mapping of its relative policy. -/
theorem wholeWordPolicyConversions : Obligations.WholeWordPolicyConversions := by
  intro W v d hW hv hd
  refine ⟨exists_inject_word hd, fun pol pol' out h => ?_⟩
  have hbit {i : Nat} (hi : i < W) := bit_inject_word hW hd h hi
  refine ⟨?_, ?_, ?_, ?_⟩
  · rintro (hp | hp) i hi <;> cases hp
    all_goals exact (hbit hi).trans (congrArg v.bit (pos_BOBB hW hi))
  · rintro (hp | hp | hp | hp) i hi <;> cases hp
    all_goals exact (hbit hi).trans (congrArg v.bit (pos_BOLB W i))
  · rintro (hp | hp | hp | hp) i hi <;> cases hp
    all_goals exact (hbit hi).trans (congrArg v.bit (pos_LOBB W i))
  · rintro rfl
    have hout := length_inject_word hd h
    have hself : relativePolicy pol pol = .LOLB := by simp [relativePolicy, Policy.LOLB]
    refine Word.ext_bit (hout.trans hv.symm) fun i hi => ?_
    rw [hbit (hout ▸ hi), hself, pos_LOLB]

end Sys2Proof.Machine
end

section
/-! Proofs of the statements about the accumulator: the PROCESS commands and their errors (R140 to R151), the message
the block holds (R151, R154), RESULT (R155 to R178) and the resets (R160, R270). -/

namespace Sys2Proof.Machine

/-! ### Taking in message bits (R146 to R151) -/

/-- `t` is a state in which the bits `m` have been taken in after the state `s`: they follow the valid bits of BUF, the
full blocks of the two together are absorbed, and the rest are the valid bits. -/
structure TakesIn (s : State) (m : List Bool) (t : State) : Prop where
  cfg : t.cfg = s.cfg
  totalSeen : t.totalSeen = s.totalSeen + m.length
  filled : t.filled = (s.filled + m.length) % s.cfg.C
  valid : validBits t = tailBits s.cfg (validBits s ++ m)
  con : t.con = absorbBits s.cfg s.con (validBits s ++ m)
  shape : Word.Shape s.cfg.W s.cfg.B t.buf
  err : t.err = s.err
  errCause : t.errCause = s.errCause

variable {s t u : State} {m x : List Bool}

/-- Taking in no bit changes nothing: fewer than C bits are in the buffer (R37). -/
theorem TakesIn.refl (hs : Inv s) : TakesIn s [] s := by
  have hlt : (validBits s ++ []).length < s.cfg.C := by simpa using hs.filled_lt
  exact ⟨rfl, rfl, (Nat.mod_eq_of_lt hs.filled_lt).symm, by rw [tailBits_of_lt hlt, List.append_nil],
    (absorbBits_of_lt hlt _).symm, hs.buf_shape, rfl, rfl⟩

/-- Bits taken in one after the other are taken in as one message (R154). -/
theorem TakesIn.trans (hC : 0 < s.cfg.C) (hst : TakesIn s m t) (htu : TakesIn t x u) : TakesIn s (m ++ x) u where
  cfg := htu.cfg.trans hst.cfg
  totalSeen := by rw [htu.totalSeen, hst.totalSeen, List.length_append, Nat.add_assoc]
  filled := by rw [htu.filled, hst.filled, hst.cfg, List.length_append, Nat.mod_add_mod, Nat.add_assoc]
  valid := by rw [htu.valid, hst.valid, hst.cfg, ← tailBits_append hC, List.append_assoc]
  con := by rw [htu.con, hst.con, hst.valid, hst.cfg, ← absorbBits_append hC, List.append_assoc]
  shape := hst.cfg ▸ htu.shape
  err := htu.err.trans hst.err
  errCause := htu.errCause.trans hst.errCause

/-- Taking the response afterwards changes nothing of it. -/
theorem TakesIn.deliver (h : TakesIn s m t) : TakesIn s m (deliver t) where
  cfg := (deliver_cfg t).trans h.cfg
  totalSeen := (deliver_totalSeen t).trans h.totalSeen
  filled := (deliver_filled t).trans h.filled
  valid := by simpa [validBits] using h.valid
  con := (deliver_con t).trans h.con
  shape := (deliver_buf t).symm ▸ h.shape
  err := (deliver_err t).trans h.err
  errCause := (deliver_errCause t).trans h.errCause

/-- The counts of `n` stream bits taken in: both counters grow by n, and (F0 + n) div C blocks are absorbed (R151). -/
theorem TakesIn.counts {src : List Word} {pol : Policy} {W n : Nat} (h : TakesIn s (streamBits pol W src n) t) :
    t.totalSeen = s.totalSeen + n ∧ t.filled = (s.filled + n) % s.cfg.C ∧
      t.con = absorbBlocks s.cfg ((s.filled + n) / s.cfg.C) s.con (validBits s ++ streamBits pol W src n) := by
  have htotal := h.totalSeen
  have hfilled := h.filled
  have hcon := h.con
  rw [absorbBits, List.length_append, length_validBits] at hcon
  rw [length_streamBits] at htotal hfilled hcon
  exact ⟨htotal, hfilled, hcon⟩

/-! ### The PROCESS commands complete -/

theorem lengthInvalid_eq_false {width : Nat} {bits : BitVec 16} (h : bits.toNat ≤ width) :
    lengthInvalid width bits = false := decide_eq_false (Nat.not_lt.2 h)

theorem lengthOverflows_eq_false {cfg : Config} {total n : Nat} (h : total + n ≤ 2 ^ cfg.tsW - 1) :
    lengthOverflows cfg total n = false := decide_eq_false (Nat.not_lt.2 h)

/-- A block of B words carries C bits (R70). -/
theorem capacity_le_of_shape {cfg : Config} {blk : List Word} (h : Word.Shape cfg.W cfg.B blk) :
    cfg.C ≤ blk.length * cfg.W := by
  rw [h.length]
  exact le_rfl

/-- A submission that passes both checks takes in the bits of its payload and answers OK (R142, R143). -/
theorem submit_takesIn (hs : Inv s) {src : List Word} {width : Nat} {bits : BitVec 16} (hw : 0 < width)
    (hsrc : width ≤ src.length * s.cfg.W) (hlen : lengthInvalid width bits = false)
    (hroom : s.totalSeen + effectiveBits width bits ≤ 2 ^ s.cfg.tsW - 1) :
    ∃ t, submit src width bits s = .next t ∧ respondedOk t ∧ SameHost s t ∧
      TakesIn s (streamBits s.cfg.inEndian s.cfg.W src (effectiveBits width bits)) t := by
  obtain ⟨buf, draws, h, hbuf, hvalid⟩ := submit_ok hs.cfg_valid hs.buf_shape hs.filled_lt
    ((effectiveBits_bounds hw hlen).2.trans hsrc) hlen (lengthOverflows_eq_false hroom)
  exact ⟨_, h, rfl, ⟨rfl, rfl, rfl⟩, rfl, by simp, by simp, hvalid, rfl, hbuf, rfl, rfl⟩

/-- A PROCESS command with a count its width allows, and room in TOTAL_SEEN, takes in the bits it submits. -/
theorem exec_takesIn (hs : Inv s) {i : Instr} (hi : i.wf s.cfg = true) (hsub : isSubmission s.cfg i = true)
    (hroom : s.totalSeen + (submittedBits s.cfg i).length ≤ 2 ^ s.cfg.tsW - 1) :
    ∃ t, exec i s = .next t ∧ respondedOk t ∧ SameHost s t ∧ TakesIn s (submittedBits s.cfg i) t := by
  cases i with
  | processWord v bits =>
    rw [submittedBits, length_streamBits] at hroom
    exact submit_takesIn hs hs.cfg_valid.W_pos (by simp) (by simpa [isSubmission] using hsub) hroom
  | processBlock blk bits =>
    rw [submittedBits, length_streamBits] at hroom
    exact submit_takesIn hs hs.cfg_valid.C_pos (capacity_le_of_wf hi) (by simpa [isSubmission] using hsub) hroom
  | result | reset | readReg r | getBlock | clearErr => cases hsub

/-! ### The message a state holds (R151) -/

/-- Nothing absorbed changes what a reset leaves: a reset overwrites all that a flush writes (R160). -/
theorem resetConstruction_absorbBits (cfg : Config) (c : Construction) (m : List Bool) :
    resetConstruction cfg (absorbBits cfg c m) = resetConstruction cfg c := by
  cases hk : cfg.kind with
  | sponge => rw [resetConstruction_sponge hk, resetConstruction_sponge hk, absorbBits, absorbBlocks_mds hk]
  | md => rw [resetConstruction_md hk, resetConstruction_md hk, absorbBits, absorbBlocks_sw hk]

theorem resetConstruction_idem (cfg : Config) (c : Construction) :
    resetConstruction cfg (resetConstruction cfg c) = resetConstruction cfg c := by
  cases hk : cfg.kind with
  | sponge => simp only [resetConstruction_sponge hk]
  | md => simp only [resetConstruction_md hk]

/-- The bits taken in follow the message held before. -/
theorem Holds.takesIn (hC : 0 < s.cfg.C) (hm : Holds s m) (h : TakesIn s x t) : Holds t (m ++ x) where
  total := by rw [h.totalSeen, hm.total, List.length_append]
  filled := by rw [h.filled, hm.filled, h.cfg, List.length_append, Nat.mod_add_mod]
  tail := by rw [h.valid, hm.tail, h.cfg, ← tailBits_append hC]
  absorbed := by
    have hreset : resetConstruction s.cfg t.con = resetConstruction s.cfg s.con := by
      rw [h.con, resetConstruction_absorbBits]
    rw [h.cfg, hreset, h.con, hm.tail, absorbBits_append hC _ m x, ← hm.absorbed]

/-- A state with the reset values holds the empty message (R160, R275). -/
theorem holds_nil {c : Construction} (htotal : s.totalSeen = 0) (hfilled : s.filled = 0)
    (hcon : s.con = resetConstruction s.cfg c) : Holds s [] where
  total := htotal
  filled := by rw [hfilled, List.length_nil, Nat.zero_mod]
  tail := by rw [validBits, hfilled, tailBits, List.drop_nil]; rfl
  absorbed := by
    rw [hcon, resetConstruction_idem, absorbBits, List.length_nil, Nat.zero_div, absorbBlocks]

/-! ### One block absorbed -/

theorem absorbLive_sponge {cfg : Config} (hk : cfg.kind = .sponge) {blk : List Word} (hblk : blk.length = cfg.B)
    (c : Construction) :
    absorbLive cfg c blk = { c with sw := permute cfg (xorInto c.sw blk), phase := phaseAbsorbing } := by
  simp [absorbLive, hk, absorb, ← hblk]

theorem absorbLive_md {cfg : Config} (hk : cfg.kind = .md) (blk : List Word) (c : Construction) :
    absorbLive cfg c blk = { c with mds := mdCompress cfg c.mds blk, phase := phaseAbsorbing } := by
  simp [absorbLive, hk, mdAbsorb]

/-! ### Sequences of PROCESS commands (R154) -/

theorem execAll_cons {i : Instr} (is : List Instr) (h : exec i s = .next t) :
    execAll (i :: is) s = execAll is (deliver t) := by
  simp [execAll, h]

/-- A sequence of submissions takes in all their bits, one after the other. -/
theorem execAll_takesIn (hs : Inv s) (is : List Instr)
    (his : ∀ i ∈ is, i.wf s.cfg = true ∧ isSubmission s.cfg i = true)
    (hroom : s.totalSeen + (is.flatMap (submittedBits s.cfg)).length ≤ 2 ^ s.cfg.tsW - 1) :
    ∃ t, execAll is s = some t ∧ Inv t ∧ TakesIn s (is.flatMap (submittedBits s.cfg)) t := by
  induction is generalizing s with
  | nil => exact ⟨s, rfl, hs, .refl hs⟩
  | cons i is ih =>
    rw [List.flatMap_cons, List.length_append] at hroom
    obtain ⟨⟨hwf, hsub⟩, hrest⟩ := List.forall_mem_cons.1 his
    obtain ⟨t, ht, -, -, htakes⟩ := exec_takesIn hs hwf hsub (by omega)
    obtain ⟨t', ht', hinv⟩ := exec_inv hs hwf
    cases ht.symm.trans ht'
    have hfirst := htakes.deliver
    have hroom' : (deliver t).totalSeen + (is.flatMap (submittedBits s.cfg)).length ≤ 2 ^ s.cfg.tsW - 1 := by
      rw [hfirst.totalSeen]; omega
    rw [← hfirst.cfg] at hrest hroom'
    obtain ⟨u, hu, hu_inv, hu_takes⟩ := ih (inv_deliver hinv) hrest hroom'
    rw [hfirst.cfg] at hu_takes
    exact ⟨u, (execAll_cons is ht).trans hu, hu_inv, hfirst.trans hs.cfg_valid.C_pos hu_takes⟩

/-! ### RESULT (R155 to R178) -/

theorem execResult_of_ok {d : List Octet} (h : resultDigest s = .ok d) :
    execResult s = .next (respondOk (.digest d) s) := by
  rw [execResult, h]

theorem execResult_of_padContract (h : resultDigest s = .error (.raise .padContract)) :
    execResult s = .next (raiseError .padContract s) := by
  rw [execResult, h]; rfl

/-- RESULT reads the configuration, the counters, the construction state and the valid bits of BUF (R185). -/
theorem resultDigest_eq_of_valid_eq (ht : Inv t) (hcfg : u.cfg = t.cfg) (hfilled : u.filled = t.filled)
    (htotal : u.totalSeen = t.totalSeen) (hcon : u.con = t.con) (hvalid : validBits u = validBits t) :
    resultDigest u = resultDigest t := by
  have hsame : SameButStale t { t with buf := u.buf } :=
    ⟨rfl, by rw [← hvalid, validBits, validBits, hcfg, hfilled]⟩
  rw [← resultDigest_congr ht hsame, resultDigest, resultDigest, hcfg, hfilled, htotal, hcon]

/-- Two states with one digest answer RESULT alike. -/
theorem execResult_rsp_eq (hW : 8 ∣ t.cfg.W) (h : resultDigest u = resultDigest t) :
    ∃ t' u', execResult t = .next t' ∧ execResult u = .next u' ∧ t'.rsp = u'.rsp := by
  rcases resultDigest_cases hW with hd | ⟨d, hd⟩
  · exact ⟨_, _, execResult_of_padContract hd, execResult_of_padContract (h.trans hd), rfl⟩
  · exact ⟨_, _, execResult_of_ok hd, execResult_of_ok (h.trans hd), rfl⟩

/-- The k-th SQUEEZE gives the first B words of the state permuted k times (R175, R177). -/
theorem squeezeN_eq_flatMap (cfg : Config) (n : Nat) (c : Construction) :
    squeezeN cfg n c = (List.range n).flatMap fun k => ((permute cfg)^[k] c.sw).take cfg.B := by
  induction n generalizing c with
  | zero => rfl
  | succ n ih =>
    rw [squeezeN, ih, List.range_succ_eq_map, List.flatMap_cons, List.flatMap_map]
    rfl

/-- No more squeezes are made than the digest needs (R176). -/
theorem squeezed_lt {cfg : Config} (hc : cfg.Valid) : nSqueeze cfg * cfg.C < cfg.digestBits + cfg.C := by
  have hC := hc.C_pos
  have hle := Nat.div_mul_le_self (cfg.digestBits + cfg.C - 1) cfg.C
  rw [nSqueeze]
  omega

/-- With a PAD that keeps its contract the digest is squeezed from the state that has absorbed the padded blocks
(R173, R177). -/
theorem digest_eq_squeezeDigest {cfg : Config} {c : Construction} {blk : List Word} {bf : Nat} (hbf : bf ≠ cfg.C)
    (hpad : (pad cfg blk bf).length ≤ maxPadBlocks) :
    digest cfg c blk bf = squeezeDigest cfg ((pad cfg blk bf).foldl (absorb cfg) c) := by
  rw [digest, if_neg hbf, absorbWithPadding, if_neg (Nat.not_lt.2 hpad)]

/-! ### The status of a PROCESS word (R144) -/

/-- The outcome of a command in `s` offers a response of this status, and an error writes ERR, ERR_CAUSE and the
response only (R242, R243). -/
def EndsWith (s : State) (status : BitVec 4) (o : Host.Outcome State Fault Refusal) : Prop :=
  ∃ t r, o = .next t ∧ t.rsp = some r ∧ r.status = status ∧
    (r.status ≠ 0#4 → t = { s with err := true, errCause := r.status, rsp := some ⟨r.status, .empty⟩ })

theorem endsWith_raiseError (c : Cause) : EndsWith s (causeCode c) (.next (raiseError c s)) :=
  ⟨_, _, rfl, rfl, rfl, fun _ => rfl⟩

theorem endsWith_respondOk (d : RspData) (u : State) : EndsWith s statusOk (.next (respondOk d u)) :=
  ⟨_, _, rfl, rfl, rfl, fun h => absurd rfl h⟩

/-- The status a PROCESS command answers: its two checks in the order of R144. -/
def submitStatus (s : State) (width : Nat) (bits : BitVec 16) : BitVec 4 :=
  if width < bits.toNat then 2#4
  else if 2 ^ s.cfg.tsW - 1 < s.totalSeen + effectiveBits width bits then 4#4
  else 0#4

theorem submit_endsWith (hs : Inv s) {src : List Word} {width : Nat} (bits : BitVec 16) (hw : 0 < width)
    (hsrc : width ≤ src.length * s.cfg.W) :
    EndsWith s (submitStatus s width bits) (submit src width bits s) := by
  rcases submit_cases hs bits hw hsrc with ⟨hl, h⟩ | ⟨hl, ho, h⟩ | ⟨hl, ho, buf, draws, h, -, -⟩
  · rw [h, submitStatus, if_pos (of_decide_eq_true hl)]
    exact endsWith_raiseError .invalidLength
  · rw [h, submitStatus, if_neg (of_decide_eq_false hl), if_pos (of_decide_eq_true ho)]
    exact endsWith_raiseError .lengthOverflow
  · rw [h, submitStatus, if_neg (of_decide_eq_false hl), if_neg (of_decide_eq_false ho)]
    exact endsWith_respondOk _ _

/-- A PROCESS command word is legal when REG and RSV are zero, whatever BITS is (R81, R84). -/
theorem decode_processWord {cfg : Config} {w : BitVec 32} (p : List Word) (hopc : fieldOpc w = 1)
    (hrsv : fieldRsv w = 0) (hreg : fieldReg w = 0) :
    decode cfg w p = .ok (.processWord (p.getD 0 []) (fieldBits w)) := by
  simp [decode, hopc, hrsv, hreg]

theorem decode_processBlock {cfg : Config} {w : BitVec 32} (p : List Word) (hopc : fieldOpc w = 2)
    (hrsv : fieldRsv w = 0) (hreg : fieldReg w = 0) :
    decode cfg w p = .ok (.processBlock (p.take cfg.B) (fieldBits w)) := by
  simp [decode, hopc, hrsv, hreg]

theorem fieldOpc_eq {w : BitVec 32} {k : BitVec 4} (h : w.toNat % 16 = k.toNat) : fieldOpc w = k :=
  BitVec.eq_of_toNat_eq ((toNat_fieldOpc w).trans h)

/-- The twelve bits between OPC and BITS are REG and RSV (R73). -/
theorem unused_fields_ne_zero_iff (w : BitVec 32) :
    w.toNat / 2 ^ 4 % 2 ^ 12 ≠ 0 ↔ fieldRsv w ≠ 0 ∨ fieldReg w ≠ 0 := by
  simp only [ne_eq, ← BitVec.toNat_inj, toNat_fieldRsv, toNat_fieldReg, BitVec.ofNat_eq_ofNat,
    BitVec.toNat_ofNat, Nat.zero_mod]
  omega

/-- A PROCESS word with an unused field that is not zero is illegal; any other ends as its submission does (R144). -/
theorem runCommand_process_endsWith (hs : Inv s) {c : Command} (hp : Word.Shape s.cfg.W s.cfg.B c.payload)
    {width : Nat} (hop : fieldOpc c.word = 1 ∧ width = s.cfg.W ∨ fieldOpc c.word = 2 ∧ width = s.cfg.C) :
    EndsWith s (if fieldRsv c.word ≠ 0 ∨ fieldReg c.word ≠ 0 then 1#4 else submitStatus s width (fieldBits c.word))
      (runCommand c s) := by
  by_cases hunused : fieldRsv c.word ≠ 0 ∨ fieldReg c.word ≠ 0
  · have hnot5 : fieldOpc c.word ≠ 5 := by rcases hop with ⟨h, -⟩ | ⟨h, -⟩ <;> rw [h] <;> decide
    obtain ⟨e, he⟩ : ∃ e, decode s.cfg c.word c.payload = .error e :=
      decode_error_iff.2 (.inr (hunused.imp_right fun hreg => .inl ⟨hnot5, hreg⟩))
    rw [if_pos hunused, runCommand_illegal he]
    exact endsWith_raiseError .illegalCommand
  · rw [if_neg hunused]
    obtain ⟨hrsv, hreg⟩ := not_or.1 hunused
    rw [not_not] at hrsv hreg
    rcases hop with ⟨hopc, rfl⟩ | ⟨hopc, rfl⟩
    · rw [runCommand_ok (decode_processWord _ hopc hrsv hreg)]
      exact submit_endsWith hs _ hs.cfg_valid.W_pos (by simp)
    · rw [runCommand_ok (decode_processBlock _ hopc hrsv hreg)]
      exact submit_endsWith hs _ hs.cfg_valid.C_pos (capacity_le_of_shape (hp.take le_rfl))

/-! ### The statements -/

/-- Settles O27: a submission takes in its bits, and those follow the message held. -/
theorem submissionExtendsTheMessage : Obligations.SubmissionExtendsTheMessage := by
  intro s m i hs hm hi hsub hroom
  obtain ⟨t, ht, hok, -, htakes⟩ := exec_takesIn hs hi hsub (hm.total ▸ hroom)
  exact ⟨t, ht, hok, hm.takesIn hs.cfg_valid.C_pos htakes⟩

/-- Settles O29: both sequences take in the same bits, and RESULT reads nothing else that could differ. -/
theorem chunkSplitsDoNotMatter : Obligations.ChunkSplitsDoNotMatter := by
  intro s is js hs his hjs hbits hroom
  obtain ⟨t, ht, ht_inv, ht_takes⟩ := execAll_takesIn hs is his hroom
  obtain ⟨u, hu, -, hu_takes⟩ := execAll_takesIn hs js hjs (hbits ▸ hroom)
  rw [← hbits] at hu_takes
  have hcfg := ht_takes.cfg.trans hu_takes.cfg.symm
  have hfilled := ht_takes.filled.trans hu_takes.filled.symm
  have htotal := ht_takes.totalSeen.trans hu_takes.totalSeen.symm
  have hcon := ht_takes.con.trans hu_takes.con.symm
  have hvalid := ht_takes.valid.trans hu_takes.valid.symm
  obtain ⟨t', u', ht', hu', hrsp⟩ := execResult_rsp_eq ht_inv.cfg_valid.W_octets
    (resultDigest_eq_of_valid_eq ht_inv hcfg.symm hfilled.symm htotal.symm hcon.symm hvalid.symm)
  exact ⟨t, u, t', u', ht, hu, hfilled, htotal, hcon, hvalid, ht', hu', hrsp⟩

/-- Settles O14, by `inv_reset`, which asks nothing of the register values. -/
theorem resetEstablishesTheInvariant : Obligations.ResetEstablishesTheInvariant := by
  intro s hc hbuf hin
  refine ⟨⟨_, rfl, inv_reset hc hbuf hin (.inl rfl)⟩, fun rest hrst => ⟨_, step_rst hrst, ?_⟩⟩
  exact inv_reset (s := { s with inputs := rest }) hc hbuf
    (fun c hmem => hin c (hrst ▸ List.mem_cons_of_mem _ hmem)) (.inr rfl)

/-- Settles O22: PROCESS_WORD takes in the bits of its word. -/
theorem processWordTakesInItsBits : Obligations.ProcessWordTakesInItsBits := by
  intro s v bits hs hv hbits hroom
  obtain ⟨t, ht, hok, hhost, htakes⟩ := submit_takesIn (src := [v]) hs hs.cfg_valid.W_pos (by simp)
    (lengthInvalid_eq_false hbits) hroom
  obtain ⟨htotal, hfilled, hcon⟩ := htakes.counts
  exact ⟨t, _, rfl, ht, hok, htotal, hfilled, htakes.valid, hcon, htakes.shape, htakes.err, htakes.errCause, hhost⟩

/-- Settles O23: PROCESS_BLOCK takes in the bits of its block. -/
theorem processBlockTakesInItsBits : Obligations.ProcessBlockTakesInItsBits := by
  intro s blk bits hs hblk hbits hroom
  obtain ⟨t, ht, hok, hhost, htakes⟩ := submit_takesIn hs hs.cfg_valid.C_pos (capacity_le_of_shape hblk)
    (lengthInvalid_eq_false hbits) hroom
  obtain ⟨htotal, hfilled, hcon⟩ := htakes.counts
  exact ⟨t, _, rfl, ht, hok, htotal, hfilled, htakes.valid, hcon, htakes.shape, htakes.err, htakes.errCause, hhost⟩

/-- Settles O26, with REG and RSV, and BITS, read as numbers. -/
theorem processReportsTheFirstError : Obligations.ProcessReportsTheFirstError := by
  intro s c rest width hs hr hin hop
  have hop' : fieldOpc c.word = 1 ∧ width = s.cfg.W ∨ fieldOpc c.word = 2 ∧ width = s.cfg.C :=
    hop.imp (And.imp_left fieldOpc_eq) (And.imp_left fieldOpc_eq)
  have hends := runCommand_process_endsWith (inv_inputs hs hin) (hs.inputs_shape c (by simp [hin])) hop'
  rw [← step_command_accepted hin hr] at hends
  simpa only [EndsWith, submitStatus, effectiveBits, toNat_fieldBits, ← unused_fields_ne_zero_iff] using hends

/-- Settles O34: the padded tail is absorbed, squeezed ceil(DIGEST_BITS/C) times and packed. -/
theorem resultReturnsTheSpongeDigest : Obligations.ResultReturnsTheSpongeDigest := by
  intro s hs hk hpad
  have hc := hs.cfg_valid
  have hresult : resultDigest s = digest s.cfg s.con s.buf s.filled := by rw [resultDigest, hk]
  have hdigest := digest_eq_squeezeDigest (c := s.con) hs.filled_lt.ne hpad
  generalize (pad s.cfg s.buf s.filled).foldl (absorb s.cfg) s.con = c at hdigest ⊢
  obtain ⟨octs, hocts⟩ := packWords_ok hc.W_octets (squeezeN s.cfg (nSqueeze s.cfg) c)
  have hsqueezed : squeezeDigest s.cfg c = .ok (octs.take (digestOctets s.cfg)) := by rw [squeezeDigest, hocts]
  have hlen := length_digest hc hk (hs.sw_shape hk) (hdigest.trans hsqueezed)
  rw [squeezeN_eq_flatMap] at hocts
  refine ⟨c.sw, octs, nSqueeze s.cfg, rfl, hocts, ?_, squeezed_lt hc, hlen,
    execResult_of_ok (hresult.trans (hdigest.trans hsqueezed))⟩
  rw [Config.C, ← Nat.mul_assoc]
  exact digestBits_le_squeezed hc

/-- Settles O37: the first RESULT writes nothing the second reads. -/
theorem resultIsAPeek : Obligations.ResultIsAPeek := by
  intro s hs
  rcases resultDigest_cases hs.cfg_valid.W_octets with hd | ⟨d, hd⟩
  · refine ⟨_, _, _, execResult_of_padContract hd,
      execResult_of_padContract (s := deliver (raiseError .padContract s)) hd, rfl, rfl, ?_⟩
    simp [causeCode]
  · refine ⟨_, _, _, execResult_of_ok hd, execResult_of_ok (s := deliver (respondOk (.digest d) s)) hd, rfl, rfl, ?_⟩
    simp [statusOk]

/-- Settles O56: the valid bits and the bits submitted are one message of C bits, which is the block. -/
theorem exactFillAbsorbsOneBlock : Obligations.ExactFillAbsorbsOneBlock := by
  intro s i blk hs hi hsub hroom hblk hbits
  have hC := hs.cfg_valid.C_pos
  obtain ⟨t, ht, hok, -, htakes⟩ := exec_takesIn hs hi hsub hroom
  have hfull : (validBits s ++ submittedBits s.cfg i).length = s.cfg.C := by rw [← hbits, length_streamBits]
  have hcon : t.con = absorbLive s.cfg s.con blk := by
    rw [htakes.con, absorbBits_of_eq hC hfull, ← hbits, blockOfBits_streamBits hs.cfg_valid hblk]
  refine ⟨t, ht, hok, ?_, fun hk => ?_, fun hk => ?_⟩
  · rw [List.length_append, length_validBits] at hfull
    rw [htakes.filled, hfull, Nat.mod_self]
  · exact hcon.trans (absorbLive_sponge hk hblk.length _)
  · exact hcon.trans (absorbLive_md hk _ _)

/-- Settles O24, the first check of R144. -/
theorem tooManyBitsRaiseInvalidLength : Obligations.TooManyBitsRaiseInvalidLength :=
  fun _ _ _ _ => ⟨fun h => submit_invalidLength (decide_eq_true h), fun h => submit_invalidLength (decide_eq_true h)⟩

/-- Settles O25, the second check of R144. -/
theorem totalSeenNeverWraps : Obligations.TotalSeenNeverWraps :=
  fun _ _ _ _ => ⟨fun h ho => submit_lengthOverflow (lengthInvalid_eq_false h) (decide_eq_true ho),
    fun h ho => submit_lengthOverflow (lengthInvalid_eq_false h) (decide_eq_true ho)⟩

/-- Settles O28: both resets leave the reset values. -/
theorem resetStartsAnEmptyMessage : Obligations.ResetStartsAnEmptyMessage :=
  ⟨fun _ => ⟨_, rfl, holds_nil rfl rfl rfl⟩, fun _ => holds_nil rfl rfl rfl⟩

/-- Settles O51, field by field. -/
theorem resetCommandLeavesTheResetValues : Obligations.ResetCommandLeavesTheResetValues := by
  intro s
  exact ⟨_, rfl, rfl, rfl, rfl, fun hk => resetConstruction_sponge hk _, fun hk => resetConstruction_md hk _, rfl, rfl,
    rfl, rfl, rfl, rfl⟩

end Sys2Proof.Machine
end

section
/-! Proofs of the statements about the construction (43_construction.md): what ABSORB does (R170), the live state as the
fold of its blocks (R171, R190) and its PHASE (R172), and the digest of RESULT (R174, R185, R186, R191). -/

namespace Sys2Proof.Machine

/-! ### XOR into the rate (R170) -/

section

variable {pol : Policy} {W S B : Nat} {sw blk : List Word}

theorem length_of_mem_xorInto (hsw : ∀ w ∈ sw, w.length = W) (hblk : ∀ w ∈ blk, w.length = W) :
    ∀ w ∈ xorInto sw blk, w.length = W := by
  induction sw generalizing blk with
  | nil => cases blk <;> exact hsw
  | cons w sw ih =>
    cases blk with
    | nil => exact hsw
    | cons b blk =>
      obtain ⟨hw, hsw⟩ := List.forall_mem_cons.1 hsw
      obtain ⟨hb, hblk⟩ := List.forall_mem_cons.1 hblk
      exact List.forall_mem_cons.2 ⟨by rw [Word.length_xor, hw, hb, min_self], ih hsw hblk⟩

theorem shape_xorInto (hsw : Word.Shape W S sw) (hblk : Word.Shape W B blk) : Word.Shape W S (xorInto sw blk) :=
  ⟨(length_xorInto sw blk).trans hsw.length, length_of_mem_xorInto hsw.2 hblk.2⟩

/-- Words are XORed word by word, and one mapping places the bits of both, so the streams are XORed bit by bit. -/
theorem streamBit_xorInto (hsw : Word.Shape W S sw) (hblk : Word.Shape W B blk) (hBS : B ≤ S) {p : Nat}
    (hp : p < B * W) :
    streamBit pol W (xorInto sw blk) p = Bool.xor (streamBit pol W sw p) (streamBit pol W blk p) := by
  have hword : p / W < B := Nat.div_lt_of_lt_mul (Nat.mul_comm B W ▸ hp)
  have hwidth : (sw.getD (p / W) []).length = (blk.getD (p / W) []).length :=
    (hsw.width (hword.trans_le hBS)).trans (hblk.width hword).symm
  rw [streamBit, xorInto_getD_lt sw blk _ (hblk.length ▸ hword) (hsw.length ▸ hword.trans_le hBS),
    Word.bit_xor hwidth]
  rfl

end

/-! ### The default PACK (R186) -/

theorem getLsbD_toOctet (w : Word) {i : Nat} (hi : i < 8) : (Word.toOctet w).getLsbD i = w.bit i := by
  rw [Word.toOctet, BitVec.getLsbD_ofNat, Word.testBit_toNat, decide_eq_true hi, Bool.true_and]

/-- In an octet the octet order of a policy has nothing to choose (R188). -/
theorem pos_octet_little {pol : Policy} (h : pol.bit = .little) {j : Nat} (hj : j < 8) : pos pol 8 j = j := by
  obtain ⟨_ | _, _⟩ := pol <;> cases h <;> simp only [pos] <;> omega

theorem pos_octet_big {pol : Policy} (h : pol.bit = .big) {j : Nat} (hj : j < 8) : pos pol 8 j = 7 - j := by
  obtain ⟨_ | _, _⟩ := pol <;> cases h <;> simp only [pos] <;> omega

/-! ### The fold of the blocks (R171, R190) -/

section

variable {cfg : Config} {blocks : List (List Word)}

/-- A message that starts with whole blocks absorbs these blocks in order, and what follows them, shorter than a block,
not at all. -/
theorem absorbBits_blocks (hc : cfg.Valid) (hblocks : ∀ b ∈ blocks, Word.Shape cfg.W cfg.B b) {rest : List Bool}
    (hrest : rest.length < cfg.C) (c : Construction) :
    absorbBits cfg c ((blocks.flatMap fun b => streamBits cfg.bufEndian cfg.W b cfg.C) ++ rest)
      = blocks.foldl (absorbLive cfg) c := by
  induction blocks generalizing c with
  | nil => exact absorbBits_of_lt hrest c
  | cons b blocks ih =>
    obtain ⟨hb, hblocks⟩ := List.forall_mem_cons.1 hblocks
    have hfull := length_streamBits cfg.bufEndian cfg.W b cfg.C
    rw [List.flatMap_cons, List.append_assoc, absorbBits_append hc.C_pos, tailBits_of_eq hc.C_pos hfull,
      absorbBits_of_eq hc.C_pos hfull, blockOfBits_streamBits hc hb, List.nil_append, ih hblocks, List.foldl_cons]

theorem foldl_absorbLive_sw (hk : cfg.kind = .sponge) (hblocks : ∀ b ∈ blocks, Word.Shape cfg.W cfg.B b)
    (c : Construction) :
    (blocks.foldl (absorbLive cfg) c).sw = blocks.foldl (fun sw b => permute cfg (xorInto sw b)) c.sw := by
  induction blocks generalizing c with
  | nil => rfl
  | cons b blocks ih =>
    obtain ⟨hb, hblocks⟩ := List.forall_mem_cons.1 hblocks
    rw [List.foldl_cons, List.foldl_cons, ih hblocks, absorbLive_sponge hk hb.length]

theorem foldl_absorbLive_mds (hk : cfg.kind = .md) (blocks : List (List Word)) (c : Construction) :
    (blocks.foldl (absorbLive cfg) c).mds = blocks.foldl (mdCompress cfg) c.mds :=
  (List.foldl_hom Construction.mds fun c b => by rw [absorbLive_md hk]).symm

/-- The last block absorbed, if there is one, has set ABSORBING (R172). -/
theorem foldl_absorbLive_phase (blocks : List (List Word)) (c : Construction) :
    (blocks.foldl (absorbLive cfg) c).phase = if blocks = [] then c.phase else phaseAbsorbing := by
  rcases List.eq_nil_or_concat blocks with rfl | ⟨init, last, rfl⟩
  · rfl
  · simp

end

/-! ### The construction state that is not there (log 19) -/

/-- Two construction values agree on the state that the configuration's kind has: SW or MDS (R25, R26). -/
structure SameLive (cfg : Config) (c c' : Construction) : Prop where
  sw : cfg.kind = .sponge → c'.sw = c.sw
  mds : cfg.kind = .md → c'.mds = c.mds

section

variable {cfg : Config} {c c' : Construction}

theorem SameLive.absorbLive (h : SameLive cfg c c') (blk : List Word) :
    SameLive cfg (absorbLive cfg c blk) (absorbLive cfg c' blk) where
  sw hk := by simp only [Machine.absorbLive, hk, absorb, h.sw hk]
  mds hk := by rw [absorbLive_md hk, absorbLive_md hk, h.mds hk]

theorem SameLive.absorbBlocks (h : SameLive cfg c c') (k : Nat) (m : List Bool) :
    SameLive cfg (absorbBlocks cfg k c m) (absorbBlocks cfg k c' m) := by
  induction k generalizing c c' m with
  | zero => exact h
  | succ k ih => exact ih (h.absorbLive _) _

/-- Whatever the other kind's field holds, a reset leaves the construction state of `State.resetOf` (R160). -/
theorem sameLive_resetConstruction (cfg : Config) (c : Construction) :
    SameLive cfg (State.resetOf cfg).con (resetConstruction cfg c) where
  sw hk := by simp [resetConstruction_sponge hk, State.resetOf, hk]
  mds hk := by simp [resetConstruction_md hk, State.resetOf, hk]

theorem squeezeDigest_congr_sw (h : c'.sw = c.sw) : squeezeDigest cfg c' = squeezeDigest cfg c := by
  simp only [squeezeDigest, squeezeN_eq_flatMap, h]

theorem foldl_absorb_sw (blocks : List (List Word)) (c : Construction) :
    (blocks.foldl (absorb cfg) c).sw
      = blocks.foldl (fun sw b => permute cfg (xorInto sw (b.take cfg.B))) c.sw :=
  (List.foldl_hom Construction.sw fun _ _ => rfl).symm

/-- DIGEST reads of the construction value SW only (R177). -/
theorem digest_congr_sw (h : c'.sw = c.sw) (blk : List Word) (bf : Nat) :
    digest cfg c' blk bf = digest cfg c blk bf := by
  by_cases hbf : bf = cfg.C
  · rw [digest, digest, if_pos hbf, if_pos hbf]
    exact squeezeDigest_congr_sw (by simp only [absorb, h])
  · by_cases hpad : maxPadBlocks < (pad cfg blk bf).length
    · simp only [digest, if_neg hbf, absorbWithPadding, if_pos hpad]
    · rw [digest_eq_squeezeDigest hbf (Nat.not_lt.1 hpad), digest_eq_squeezeDigest hbf (Nat.not_lt.1 hpad)]
      exact squeezeDigest_congr_sw (by rw [foldl_absorb_sw, foldl_absorb_sw, h])

end

/-! ### The digest of a message (R185) -/

variable {s : State} {m : List Bool}

/-- RESULT reads of the construction state what the configuration's kind has (R157). -/
theorem resultDigest_congr_con (s : State) {c : Construction} (h : SameLive s.cfg c s.con) :
    resultDigest s = resultDigest { s with con := c } := by
  cases hk : s.cfg.kind with
  | sponge => simp only [resultDigest, hk, digest_congr_sw (h.sw hk)]
  | md => simp only [resultDigest, hk, mdDigest, h.mds hk]

/-- The digest of RESULT in a state that holds a message is the digest of the message: BUF can be replaced by the block
of the message's tail, which differs in stale bits only, and the construction state by one absorbed from the reset
state, which differs in the field of the other kind only. -/
theorem resultDigest_of_holds (hs : Inv s) (hm : Holds s m) : resultDigest s = messageDigest s.cfg m := by
  have hfilled : s.filled = (tailBits s.cfg m).length := hm.filled.trans (length_tailBits s.cfg m).symm
  have hstale : SameButStale s { s with buf := blockOfBits s.cfg (tailBits s.cfg m) } := by
    refine ⟨rfl, ?_⟩
    rw [hm.tail, validBits, hfilled]
    exact streamBits_blockOfBits hs.cfg_valid (hfilled ▸ hs.filled_lt.le)
  have hlive : SameLive s.cfg (absorbBits s.cfg (State.resetOf s.cfg).con m) s.con := by
    rw [hm.absorbed]
    exact (sameLive_resetConstruction s.cfg s.con).absorbBlocks _ m
  calc resultDigest s
      = resultDigest { s with buf := blockOfBits s.cfg (tailBits s.cfg m) } := (resultDigest_congr hs hstale).symm
    _ = resultDigest
          { s with
            buf := blockOfBits s.cfg (tailBits s.cfg m)
            con := absorbBits s.cfg (State.resetOf s.cfg).con m } := resultDigest_congr_con _ hlive
    _ = messageDigest s.cfg m := by
      cases hk : s.cfg.kind <;> simp only [resultDigest, messageDigest, hk, hm.total, hfilled]

/-! ### PHASE (R172) -/

/-- A command other than RESET leaves PHASE as it is or sets it to ABSORBING. -/
theorem exec_keeps_absorbing (hs : Inv s) {i : Instr} (hi : i.wf s.cfg = true) (hne : i ≠ .reset)
    (hphase : s.con.phase = phaseAbsorbing) : ∃ t, exec i s = .next t ∧ t.con.phase = phaseAbsorbing := by
  obtain ⟨t, r, ht, -, -, hok, herr⟩ := commandsWriteOnlyTheirState s i hs hi
  refine ⟨t, ht, ?_⟩
  by_cases hr : r.status = 0#4
  · have hwrites := hok hr
    cases i with
    | processWord v bits | processBlock blk bits =>
      obtain ⟨-, -, -, hroom, hflush, -, -⟩ := hwrites
      rcases Nat.lt_or_ge (s.filled + (t.totalSeen - s.totalSeen)) s.cfg.C with hlt | hle
      · rw [hroom hlt, hphase]
      · exact hflush hle
    | result | readReg r | clearErr => rw [show t.con = s.con from hwrites.1.con, hphase]
    | getBlock => rw [hwrites.con, hphase]
    | reset => exact absurd rfl hne
  · rw [show t.con = s.con from (herr hr).1.con, hphase]

theorem Inv.phase_ne_squeezing (hs : Inv s) : s.con.phase ≠ phaseSqueezing := by
  rcases hs.phase_live with h | h <;> rw [h] <;> decide

/-! ### The statements -/

/-- Settles O30: the state permuted is `xorInto` of the two. -/
theorem absorbXorsTheRateAndPermutes : Obligations.AbsorbXorsTheRateAndPermutes := by
  intro cfg c blk hc hk hsw hblk
  have hBS := hc.S_min hk
  refine ⟨xorInto c.sw blk, ?_, shape_xorInto hsw hblk, fun i hi => ?_, fun i hi => ?_,
    fun p hp => streamBit_xorInto hsw hblk hBS hp⟩
  · rw [absorb, ← hblk.length, List.take_length]
    rfl
  · exact xorInto_getD_lt _ _ i (hblk.length ▸ hi) (hsw.length ▸ hi.trans_le hBS)
  · exact xorInto_getD_le _ _ i (hblk.length ▸ hi)

/-- Settles O33: a bit of an octet is the stream bit that DIGEST_ENDIAN places there, and INJECT has copied it. -/
theorem defaultPackKeepsTheStream : Obligations.DefaultPackKeepsTheStream := by
  intro cfg words hc
  have h8 : words.length * cfg.W / 8 * 8 = words.length * cfg.W :=
    Nat.div_mul_cancel (Dvd.dvd.mul_left hc.W_octets _)
  refine ⟨_, packDefault_ok hc.W_octets words, by simp, fun p hp => ?_⟩
  have hj : p % 8 < 8 := Nat.mod_lt p (by decide)
  have hpos := pos_lt cfg.digestEndian (dvd_refl 8) hj
  have hcopied := streamBit_writeStream (pol := cfg.digestEndian) (dvd_refl 8)
    (Word.shape_zeros 8 (words.length * cfg.W / 8)) 0 (fun k => streamBit cfg.bufEndian cfg.W words (0 + k))
    (m := words.length * cfg.W) (by omega) p
  rw [if_pos (by omega), Nat.sub_zero, Nat.zero_add] at hcopied
  rw [streamBit, ← getLsbD_toOctet _ hpos, ← List.getD_map (f := Word.toOctet)] at hcopied
  cases horder : cfg.digestEndian.bit with
  | little => rwa [pos_octet_little horder hj] at hcopied
  | big => rwa [pos_octet_big horder hj] at hcopied

/-- Settles O38, by `resultDigest_of_holds`; RESULT answers what `resultDigest` says. -/
theorem digestIsAFunctionOfTheMessage : Obligations.DigestIsAFunctionOfTheMessage := by
  refine ⟨fun s m hs hm => ?_, fun s s' m hs hs' hcfg hm hm' => ?_⟩
  · have hdigest := resultDigest_of_holds hs hm
    refine ⟨hdigest, ?_⟩
    rw [← hdigest]
    rcases resultDigest_cases hs.cfg_valid.W_octets with h | ⟨d, h⟩
    · exact ⟨_, execResult_of_padContract h, fun d hd => by cases h.symm.trans hd⟩
    · exact ⟨_, execResult_of_ok h, fun d' hd => by cases h.symm.trans hd; rfl⟩
  · have hsame : resultDigest s' = resultDigest s := by
      rw [resultDigest_of_holds hs hm, resultDigest_of_holds hs' hm', hcfg]
    obtain ⟨t, t', ht, ht', hrsp⟩ := execResult_rsp_eq hs.cfg_valid.W_octets hsame
    exact ⟨t, t', ht, ht', hrsp.symm⟩

/-- Settles O39: the message's blocks are absorbed in order from the state a reset leaves. -/
theorem liveStateIsTheFoldOfItsBlocks : Obligations.LiveStateIsTheFoldOfItsBlocks := by
  intro s blocks rest hs hblocks hrest hm
  have hcon : s.con = blocks.foldl (absorbLive s.cfg) (resetConstruction s.cfg s.con) :=
    hm.absorbed.trans (absorbBits_blocks hs.cfg_valid hblocks hrest _)
  refine ⟨fun hk => ?_, fun hk => ?_, ?_⟩
  · rw [hcon, foldl_absorbLive_sw hk hblocks, resetConstruction_sponge hk]
  · rw [hcon, foldl_absorbLive_mds hk, resetConstruction_md hk]
  · rw [hcon, foldl_absorbLive_phase, resetConstruction_phase]
    rfl

/-- Settles O40: no live PHASE is SQUEEZING, and of the six kinds of step only `rst` and RESET can leave ABSORBING. -/
theorem onlyResetReturnsToReady : Obligations.OnlyResetReturnsToReady := by
  intro s t hs ht
  obtain ⟨t', ht', hinv⟩ := everyStepKeepsTheInvariant s hs
  cases ht.symm.trans ht'
  refine ⟨hinv.phase_ne_squeezing, fun habsorbing hready => ?_⟩
  have hleft : t.con.phase ≠ s.con.phase := by rw [habsorbing, hready]; decide
  rcases step_cases s with ⟨-, h⟩ | ⟨rest, hin, -⟩ | ⟨rest, -, h⟩ | ⟨c, rest, -, -, h⟩ | ⟨c, rest, i, hin, hr, hd, h⟩ |
    ⟨c, rest, e, -, -, -, h⟩
  · cases h.symm.trans ht
    exact absurd rfl hleft
  · exact ⟨rest, .inl hin⟩
  · cases h.symm.trans ht
    exact absurd (by rw [deliver_con]) hleft
  · cases h.symm.trans ht
    exact absurd (by rw [deliver_con]) hleft
  · by_cases hreset : i = .reset
    · exact ⟨rest, .inr ⟨c, hin, hr, hreset ▸ hd⟩⟩
    · have hwf := decode_wf hs.cfg_valid (hs.inputs_shape c (by simp [hin])) hd
      obtain ⟨u, hu, hphase⟩ := exec_keeps_absorbing (inv_inputs hs hin) hwf hreset habsorbing
      cases (h.trans hu).symm.trans ht
      exact absurd (hphase.trans habsorbing.symm) hleft
  · cases h.symm.trans ht
    exact absurd rfl hleft

/-- Settles O35: DIGEST's two ends, by the number of blocks PAD returns. -/
theorem excessPaddingRaisesPadContract : Obligations.ExcessPaddingRaisesPadContract := by
  intro s hs hk hpad
  rcases execResult_sponge hk hs.cfg_valid.W_octets hs.filled_lt.ne with ⟨-, h⟩ | ⟨hle, -⟩
  · exact h
  · exact absurd hpad (Nat.not_lt.2 hle)

/-- Settles O36: RESULT's one end on the MD path. -/
theorem resultReturnsTheMdDigest : Obligations.ResultReturnsTheMdDigest :=
  fun s _ hk => ⟨length_mdDigest s.con s.buf s.totalSeen, execResult_md hk⟩

end Sys2Proof.Machine
end

section
/-! The padding units: what PAD and MD_FINAL read (R192, R203), and the blocks of the reference pad10*1 bit by bit
(R206). -/

namespace Sys2Proof.Machine

variable {cfg : Config} {blk blk' : List Word} {bf : Nat}

/-- MD_FINAL depends on the bits of the last, partial block only (R192). -/
theorem mdFinal_congr (mds : Nat) {total : Nat}
    (h : streamBits cfg.bufEndian cfg.W blk (total % cfg.C) = streamBits cfg.bufEndian cfg.W blk' (total % cfg.C)) :
    mdFinal cfg mds blk total = mdFinal cfg mds blk' total := by
  simp only [mdFinal, h]

/-! ### The blocks of PAD_101 (R206) -/

/-- The first block of PAD_101 before its final bit: the valid bits of `blk` and the marker after them. -/
def markedBlock (cfg : Config) (blk : List Word) (bf : Nat) : List Word :=
  setStreamBit cfg.bufEndian cfg.W
    (writeStream cfg.bufEndian cfg.W (Word.zeros cfg.W cfg.B) 0 (streamBit cfg.bufEndian cfg.W blk) bf) bf true

theorem shape_markedBlock (cfg : Config) (blk : List Word) (bf : Nat) :
    Word.Shape cfg.W cfg.B (markedBlock cfg blk bf) :=
  shape_setStreamBit (shape_writeStream (Word.shape_zeros _ _) _ _ _) _ _

theorem streamBit_markedBlock (hc : cfg.Valid) (blk : List Word) (hbf : bf < cfg.C) (p : Nat) :
    streamBit cfg.bufEndian cfg.W (markedBlock cfg blk bf) p
      = if p < bf then streamBit cfg.bufEndian cfg.W blk p else decide (p = bf) := by
  have hcopied : Word.Shape cfg.W cfg.B
      (writeStream cfg.bufEndian cfg.W (Word.zeros cfg.W cfg.B) 0 (streamBit cfg.bufEndian cfg.W blk) bf) :=
    shape_writeStream (Word.shape_zeros _ _) _ _ _
  rw [markedBlock, streamBit_setStreamBit hc.W_octets hcopied hbf,
    streamBit_writeStream hc.W_octets (Word.shape_zeros _ _) _ _ (by rw [Nat.zero_add]; exact hbf.le)]
  rcases Nat.lt_trichotomy p bf with hp | rfl | hp
  · simp [hp, hp.ne]
  · simp
  · simp [hp.ne', hp.not_gt]

/-- Setting the final bit of a block changes its last position and no other. -/
theorem streamBit_setFinalBit (hc : cfg.Valid) {b : List Word} (hb : Word.Shape cfg.W cfg.B b) (p : Nat) :
    streamBit cfg.bufEndian cfg.W (setStreamBit cfg.bufEndian cfg.W b (cfg.C - 1) true) p
      = if p = cfg.C - 1 then true else streamBit cfg.bufEndian cfg.W b p :=
  streamBit_setStreamBit hc.W_octets hb (Nat.sub_lt hc.C_pos Nat.one_pos) true p

/-- With room for both the marker and the final bit, PAD_101 answers one block. -/
theorem pad101_of_lt (h : bf + 1 < cfg.C) :
    pad101 cfg blk bf = [setStreamBit cfg.bufEndian cfg.W (markedBlock cfg blk bf) (cfg.C - 1) true] :=
  if_pos (by omega)

/-- With room for the marker only, the final bit goes to a block of its own. -/
theorem pad101_of_eq (h : bf + 1 = cfg.C) :
    pad101 cfg blk bf = [markedBlock cfg blk bf,
      setStreamBit cfg.bufEndian cfg.W (Word.zeros cfg.W cfg.B) (cfg.C - 1) true] :=
  if_neg (by omega)

/-! ### The statements -/

/-- Settles O31: both units read of a block its valid bits only, as `pad_congr` and `mdFinal_congr` say. -/
theorem paddingReadsTheValidBitsOnly : Obligations.PaddingReadsTheValidBitsOnly := by
  intro cfg blk blk' bf h
  refine ⟨pad_congr (streamBits_congr h), fun mds total htotal => mdFinal_congr mds ?_⟩
  rw [htotal]
  exact streamBits_congr h

/-- Settles O32: the marked block and the final bit, in one block or, when the marker takes the last position, in two. -/
theorem referencePaddingIsPad101 : Obligations.ReferencePaddingIsPad101 := by
  intro cfg blk bf hc _ hbf
  have hmarked := shape_markedBlock cfg blk bf
  refine ⟨fun hroom => ⟨_, pad101_of_lt hroom, shape_setStreamBit hmarked _ _, fun p _ => ?_⟩,
    fun hspill => ⟨_, _, pad101_of_eq hspill, hmarked, shape_setStreamBit (Word.shape_zeros _ _) _ _,
      fun p hp => ?_, fun p _ => ?_⟩⟩
  · rw [streamBit_setFinalBit hc hmarked, streamBit_markedBlock hc blk hbf]
    by_cases hlast : p = cfg.C - 1
    · have hnot : ¬ p < bf := by omega
      rw [if_pos hlast, if_neg hnot, decide_eq_true (.inr hlast)]
    · simp [hlast]
  · rw [streamBit_markedBlock hc blk hbf]
    by_cases hvalid : p < bf
    · simp only [if_pos hvalid]
    · have hmarker : p = bf := by omega
      rw [if_neg hvalid, if_neg hvalid, decide_eq_true hmarker]
  · rw [streamBit_setFinalBit hc (Word.shape_zeros _ _)]
    by_cases hlast : p = cfg.C - 1 <;> simp [hlast]

end Sys2Proof.Machine
end

section
/-! Proofs of the statements about the host's access (45_host_access.md): READ_REG (R222), GET_BLOCK (R225 to R227),
CLEAR_ERR (R228) and an error that is pending (R230, R251). -/

namespace Sys2Proof.Machine

variable {s : State}

/-! ### GET_BLOCK (R225 to R227) -/

/-- A valid bit of BUF is a bit of the message held: position p is message bit TOTAL_SEEN − FILLED + p (R151). -/
theorem Holds.streamBit_buf {m : List Bool} (hm : Holds s m) {p : Nat} (hp : p < s.filled) :
    streamBit s.cfg.bufEndian s.cfg.W s.buf p = m.getD (s.totalSeen - s.filled + p) false := by
  have hstart : s.totalSeen - s.filled = m.length / s.cfg.C * s.cfg.C := by
    rw [hm.total, hm.filled, Nat.mod_def, Nat.mul_comm, Nat.sub_sub_self (Nat.div_mul_le_self _ _)]
  calc streamBit s.cfg.bufEndian s.cfg.W s.buf p
      = (validBits s).getD p false := by simp [validBits, streamBits, hp]
    _ = m.getD (s.totalSeen - s.filled + p) false := by
      rw [hm.tail, tailBits, hstart]
      simp [List.getD_eq_getElem?_getD]

/-- A valid bit is read as it stands in BUF (R226, R227). -/
theorem streamBit_readBlock_valid (hs : Inv s) {p : Nat} (hp : p < s.filled) :
    streamBit s.cfg.bufEndian s.cfg.W (readBlock s) p = streamBit s.cfg.bufEndian s.cfg.W s.buf p :=
  (streamBit_readBlock hs.cfg_valid hs.buf_shape hs.filled_lt.le (hp.trans hs.filled_lt)).trans (if_pos hp)

/-! ### READ_REG (R220, R222) -/

/-- No register shows the response channel: a response offered and taken changes no register's value (R31). -/
theorem regValue_deliver_respond (st : BitVec 4) (d : RspData) (r : Reg) :
    regValue (deliver (respond st d s)) r = regValue s r := by
  rw [deliver_some (respond_rsp ..)]
  cases r <;> rfl

/-- READ_REG after a response that was taken answers the value from before that response (R222). -/
theorem exec_readReg_deliver_respond (st : BitVec 4) (d : RspData) {r : Reg} (h : r.present s.cfg = true) :
    exec (.readReg r) (deliver (respond st d s))
      = .next (respondOk (.value (regValue s r)) (deliver (respond st d s))) := by
  rw [exec_readReg, execReadReg_present (by rwa [deliver_cfg]), regValue_deliver_respond]

/-- Only STATUS and ERR_CAUSE show the error that is pending (R31). -/
theorem regValue_congr_error (s : State) (e : Bool) (k : BitVec 4) {r : Reg} (hstatus : r ≠ .status)
    (hcause : r ≠ .errCause) : regValue { s with err := e, errCause := k } r = regValue s r := by
  cases r with
  | status => exact absurd rfl hstatus
  | errCause => exact absurd rfl hcause
  | bitsUsed | capacity | config | totalSeen k => rfl

/-! ### A pending error (R230, R251) -/

/-- Both outcomes are next states that hold the same accumulation state and offer the same response. -/
def ActAlike (o o' : Host.Outcome State Fault Refusal) : Prop :=
  ∃ t u, o = .next t ∧ o' = .next u ∧ u.rsp = t.rsp ∧ u.filled = t.filled ∧ u.totalSeen = t.totalSeen ∧
    u.con = t.con ∧ validBits u = validBits t

/-- PROCESS reads neither ERR nor ERR_CAUSE (R144, R146). -/
theorem actAlike_submit (hs : Inv s) (e : Bool) (k : BitVec 4) {src : List Word} {width : Nat} (bits : BitVec 16)
    (hw : 0 < width) (hsrc : width ≤ src.length * s.cfg.W) :
    ActAlike (submit src width bits s) (submit src width bits { s with err := e, errCause := k }) := by
  rcases submit_cases hs bits hw hsrc with ⟨hl, h⟩ | ⟨hl, ho, h⟩ | ⟨hl, ho, buf, draws, h, -, hbits⟩
  · exact ⟨_, _, h, submit_invalidLength hl, rfl, rfl, rfl, rfl, rfl⟩
  · exact ⟨_, _, h, submit_lengthOverflow hl ho, rfl, rfl, rfl, rfl, rfl⟩
  · obtain ⟨buf', draws', h', -, hbits'⟩ := submit_ok (s := { s with err := e, errCause := k }) hs.cfg_valid
      hs.buf_shape hs.filled_lt ((effectiveBits_bounds hw hl).2.trans hsrc) hl ho
    exact ⟨_, _, h, h', rfl, rfl, rfl, rfl, hbits'.trans hbits.symm⟩

/-- RESULT's digest reads neither ERR nor ERR_CAUSE (R155). -/
theorem actAlike_result (hs : Inv s) (e : Bool) (k : BitVec 4) :
    ActAlike (execResult s) (execResult { s with err := e, errCause := k }) := by
  rcases resultDigest_cases hs.cfg_valid.W_octets with hd | ⟨d, hd⟩
  · exact ⟨_, _, execResult_of_padContract hd, execResult_of_padContract hd, rfl, rfl, rfl, rfl, rfl⟩
  · exact ⟨_, _, execResult_of_ok hd, execResult_of_ok hd, rfl, rfl, rfl, rfl, rfl⟩

/-- Every command but a READ_REG acts and answers alike whatever error is pending. -/
theorem exec_actAlike (hs : Inv s) (e : Bool) (k : BitVec 4) {i : Instr} (hi : i.wf s.cfg = true)
    (hne : ∀ r, i ≠ .readReg r) : ActAlike (exec i s) (exec i { s with err := e, errCause := k }) := by
  cases i with
  | processWord v bits => exact actAlike_submit hs e k bits hs.cfg_valid.W_pos (by simp)
  | processBlock blk bits => exact actAlike_submit hs e k bits hs.cfg_valid.C_pos (capacity_le_of_wf hi)
  | result => exact actAlike_result hs e k
  | readReg r => exact absurd rfl (hne r)
  | reset | getBlock | clearErr => exact ⟨_, _, rfl, rfl, rfl, rfl, rfl, rfl, rfl⟩

/-! ### The statements -/

/-- Settles O45: the block is `readBlock`, whose valid bits are those of BUF, which are the message's last. -/
theorem getBlockReturnsTheValidBits : Obligations.GetBlockReturnsTheValidBits := by
  intro s m hs hm
  refine ⟨_, readBlock s, rfl, rfl, shape_readBlock hs.buf_shape, fun p hp => ?_⟩
  have hread := streamBit_readBlock_valid hs hp
  exact ⟨hread.trans (hm.streamBit_buf hp), hread⟩

/-- Settles O48: what each command writes of ERR and ERR_CAUSE is in its row of R42. -/
theorem errIsSticky : Obligations.ErrIsSticky := by
  intro s i hs hi
  obtain ⟨t, r, ht, hr, -, hok, herr⟩ := commandsWriteOnlyTheirState s i hs hi
  refine ⟨t, r, ht, hr, fun hfail => ?_, fun hstatus hreset hclear => ?_, fun hcmd => ?_⟩
  · obtain ⟨-, hset, hcause, -⟩ := herr hfail
    exact ⟨hset, hcause⟩
  · have hwrites := hok hstatus
    cases i with
    | processWord v bits | processBlock blk bits =>
      obtain ⟨hkept, hcause, -⟩ := hwrites
      exact ⟨hkept, hcause⟩
    | result | readReg r =>
      obtain ⟨harch, -⟩ := hwrites
      exact ⟨harch.err, harch.errCause⟩
    | getBlock => exact ⟨hwrites.err, hwrites.errCause⟩
    | reset => exact absurd rfl hreset
    | clearErr => exact absurd rfl hclear
  · rcases hcmd with rfl | rfl <;> cases ht <;> exact ⟨rfl, rfl⟩

/-- Settles O49: a READ_REG answers the value of its register, every other command is `exec_actAlike`. -/
theorem pendingErrorBlocksNothing : Obligations.PendingErrorBlocksNothing := by
  intro s i e k hs hi
  by_cases hread : ∃ r, i = .readReg r
  · obtain ⟨r, rfl⟩ := hread
    refine ⟨_, _, exec_readReg_present hi, exec_readReg_present hi, fun hstatus hcause => ?_, rfl, rfl, rfl, rfl⟩
    have hvalue := regValue_congr_error s e k (r := r) (mt (congrArg _) hstatus) (mt (congrArg _) hcause)
    simp only [hvalue]
  · obtain ⟨t, u, ht, hu, hrsp, hstate⟩ := exec_actAlike hs e k hi (not_exists.1 hread)
    exact ⟨t, u, ht, hu, fun _ _ => hrsp, hstate⟩

/-- Settles O41: the first READ_REG changes the response channel only, and no register shows that. -/
theorem readRegHasNoSideEffects : Obligations.ReadRegHasNoSideEffects :=
  fun _ _ hr => ⟨_, _, exec_readReg_present hr, rfl, _, exec_readReg_deliver_respond statusOk _ hr, rfl⟩

/-- Settles O46: `acknowledgeError` writes the two fields. -/
theorem clearErrClearsTheErrorOnly : Obligations.ClearErrClearsTheErrorOnly := exec_clearErr

end Sys2Proof.Machine
end

section
/-! Proofs of the statements about the errors (60_exceptions.md): an error changes nothing but ERR, ERR_CAUSE and the
response (R241 to R243), and CAPACITY_VIOLATION is never raised (R104, R248). -/

namespace Sys2Proof.Machine

variable {s t : State}

/-! ### How a command ends, in every state (R71, R241) -/

/-- `t` is how a command from `s` ends: an error taken from `s` itself, or an OK response. -/
def EndOfCommand (s t : State) : Prop :=
  (∃ c, t = raiseError c s) ∨ ∃ d u, t = respondOk d u

/-- The one way a command that stopped early has a next state is an error (R241). -/
theorem stopped_eq_next {e : Stop} (h : stopped s e = .next t) : ∃ c, t = raiseError c s := by
  cases e with
  | raise c => cases h; exact ⟨c, rfl⟩
  | fault f => cases h
  | refuse r => cases h

theorem submit_endOfCommand {src : List Word} {width : Nat} {bits : BitVec 16}
    (h : submit src width bits s = .next t) : EndOfCommand s t := by
  unfold submit at h
  dsimp only at h
  split at h
  · cases h; exact .inl ⟨_, rfl⟩
  · split at h
    · cases h; exact .inl ⟨_, rfl⟩
    · split at h
      · cases h; exact .inr ⟨_, _, rfl⟩
      · exact .inl (stopped_eq_next h)

theorem execResult_endOfCommand (h : execResult s = .next t) : EndOfCommand s t := by
  unfold execResult at h
  split at h
  · cases h; exact .inr ⟨_, _, rfl⟩
  · exact .inl (stopped_eq_next h)

theorem execReadReg_endOfCommand {r : Reg} (h : execReadReg r s = .next t) : EndOfCommand s t := by
  unfold execReadReg at h
  split at h
  · cases h; exact .inr ⟨_, _, rfl⟩
  · cases h; exact .inl ⟨_, rfl⟩

theorem exec_endOfCommand {i : Instr} (h : exec i s = .next t) : EndOfCommand s t := by
  cases i with
  | processWord v bits => exact submit_endOfCommand h
  | processBlock blk bits => exact submit_endOfCommand h
  | result => exact execResult_endOfCommand h
  | readReg r => exact execReadReg_endOfCommand h
  | reset | getBlock | clearErr => cases h; exact .inr ⟨_, _, rfl⟩

/-- A command word, legal or not, that has a next state ends in one of the two ways. -/
theorem runCommand_endOfCommand {c : Command} (h : runCommand c s = .next t) : EndOfCommand s t := by
  cases hd : decode s.cfg c.word c.payload with
  | ok i => exact exec_endOfCommand ((runCommand_ok hd).symm.trans h)
  | error e => cases (runCommand_illegal hd).symm.trans h; exact .inl ⟨_, rfl⟩

/-! ### No command raises CAPACITY_VIOLATION (R104, R248) -/

/-- The outcome is a next state whose response is not CAPACITY_VIOLATION, and ERR_CAUSE does not become it. -/
def AvoidsCapacityViolation (s : State) (o : Host.Outcome State Fault Refusal) : Prop :=
  ∃ t r, o = .next t ∧ t.rsp = some r ∧ r.status ≠ 3#4 ∧ (s.errCause ≠ 3#4 → t.errCause ≠ 3#4)

theorem causeCode_ne_capacityViolation {c : Cause} (hc : c ≠ .capacityViolation) : causeCode c ≠ 3#4 := by
  cases c with
  | capacityViolation => exact absurd rfl hc
  | illegalCommand | invalidLength | lengthOverflow | padContract => decide

theorem statusOk_ne_capacityViolation : statusOk ≠ 3#4 := by decide

theorem avoidsCapacityViolation_raiseError {c : Cause} (hc : c ≠ .capacityViolation) :
    AvoidsCapacityViolation s (.next (raiseError c s)) :=
  ⟨_, _, rfl, rfl, causeCode_ne_capacityViolation hc, fun _ => causeCode_ne_capacityViolation hc⟩

/-- A success keeps ERR_CAUSE or clears it (R230). -/
theorem avoidsCapacityViolation_respondOk (d : RspData) {u : State}
    (hu : u.errCause = s.errCause ∨ u.errCause = statusOk) : AvoidsCapacityViolation s (.next (respondOk d u)) := by
  refine ⟨_, _, rfl, rfl, statusOk_ne_capacityViolation, fun hs => ?_⟩
  rcases hu with hkept | hcleared
  · exact hkept ▸ hs
  · exact hcleared ▸ statusOk_ne_capacityViolation

/-- PROCESS never appends more than the room left, so its own two checks are the only errors (R104, R144, R147). -/
theorem submit_avoidsCapacityViolation (hs : Inv s) {src : List Word} {width : Nat} (bits : BitVec 16)
    (hw : 0 < width) (hsrc : width ≤ src.length * s.cfg.W) :
    AvoidsCapacityViolation s (submit src width bits s) := by
  rcases submit_cases hs bits hw hsrc with ⟨-, h⟩ | ⟨-, -, h⟩ | ⟨-, -, buf, draws, h, -, -⟩
  · exact h ▸ avoidsCapacityViolation_raiseError (by decide)
  · exact h ▸ avoidsCapacityViolation_raiseError (by decide)
  · exact h ▸ avoidsCapacityViolation_respondOk _ (.inl rfl)

/-- RESULT raises PAD_CONTRACT only (R174). -/
theorem execResult_avoidsCapacityViolation (hs : Inv s) : AvoidsCapacityViolation s (execResult s) := by
  rcases execResult_cases hs with h | ⟨d, h⟩
  · exact h ▸ avoidsCapacityViolation_raiseError (by decide)
  · exact h ▸ avoidsCapacityViolation_respondOk _ (.inl rfl)

theorem exec_avoidsCapacityViolation (hs : Inv s) {i : Instr} (hi : i.wf s.cfg = true) :
    AvoidsCapacityViolation s (exec i s) := by
  cases i with
  | processWord v bits => exact submit_avoidsCapacityViolation hs bits hs.cfg_valid.W_pos (by simp)
  | processBlock blk bits => exact submit_avoidsCapacityViolation hs bits hs.cfg_valid.C_pos (capacity_le_of_wf hi)
  | result => exact execResult_avoidsCapacityViolation hs
  | readReg r => exact exec_readReg_present hi ▸ avoidsCapacityViolation_respondOk _ (.inl rfl)
  | getBlock => exact avoidsCapacityViolation_respondOk _ (.inl rfl)
  | reset | clearErr => exact avoidsCapacityViolation_respondOk _ (.inr rfl)

theorem runCommand_avoidsCapacityViolation (hs : Inv s) {c : Command} (hp : Word.Shape s.cfg.W s.cfg.B c.payload) :
    AvoidsCapacityViolation s (runCommand c s) := by
  cases hd : decode s.cfg c.word c.payload with
  | ok i => exact runCommand_ok hd ▸ exec_avoidsCapacityViolation hs (decode_wf hs.cfg_valid hp hd)
  | error e => exact runCommand_illegal hd ▸ avoidsCapacityViolation_raiseError (by decide)

/-- A step that runs no command keeps ERR_CAUSE or, on `rst`, clears it; any other is the command's (R230, R270). -/
theorem step_errCause_ne_capacityViolation (hs : Inv s) (hcause : s.errCause ≠ 3#4) :
    ∃ t, step s = .next t ∧ t.errCause ≠ 3#4 := by
  rcases step_cases s with ⟨-, h⟩ | ⟨rest, -, h⟩ | ⟨rest, -, h⟩ | ⟨c, rest, -, -, h⟩ | ⟨c, rest, i, hin, -, hd, h⟩ |
    ⟨c, rest, e, -, -, -, h⟩
  · exact ⟨_, h, hcause⟩
  · exact ⟨_, h, statusOk_ne_capacityViolation⟩
  · exact ⟨_, h, by rwa [deliver_errCause]⟩
  · exact ⟨_, h, by rwa [deliver_errCause]⟩
  · have hwf := decode_wf hs.cfg_valid (hs.inputs_shape c (by simp [hin])) hd
    obtain ⟨t, -, ht, -, -, hkept⟩ := exec_avoidsCapacityViolation (inv_inputs hs hin) hwf
    exact ⟨t, h.trans ht, hkept hcause⟩
  · exact ⟨_, h, causeCode_ne_capacityViolation (c := .illegalCommand) (by decide)⟩

/-! ### The statements -/

/-- Settles O21: a command that ends raises another cause or none, and a step writes ERR_CAUSE as its command does. -/
theorem capacityViolationIsUnreachable : Obligations.CapacityViolationIsUnreachable := by
  refine ⟨rfl, fun s c hs hp => ?_, fun s hs hcause => step_errCause_ne_capacityViolation hs hcause⟩
  obtain ⟨t, r, ht, hr, hstatus, -⟩ := runCommand_avoidsCapacityViolation hs hp
  exact ⟨t, r, ht, hr, hstatus⟩

/-- Settles O47: a status that is not OK comes from `raiseError` on the state before the command. -/
theorem errorsArePrecise : Obligations.ErrorsArePrecise := by
  intro s t c r ht hr hstatus
  rcases runCommand_endOfCommand ht with ⟨cause, rfl⟩ | ⟨d, u, rfl⟩
  · cases hr; rfl
  · cases hr; exact absurd rfl hstatus

end Sys2Proof.Machine
end

section
/-! Proofs of the statements about the two resets: RESET and `rst` (R160, R270 to R272). -/

namespace Sys2Proof.Machine

variable {s t : State}

/-! ### The registers after a reset (R271) -/

/-- Either reset shows the registers of the accumulator's reset: no register shows BUF or the response (R31). -/
theorem regValue_of_reset (h : exec .reset s = .next t ∨ t = hardwareReset s) (r : Reg) :
    regValue t r = regValue (resetAccumulator s) r := by
  rcases h with h | rfl
  · cases h; cases r <;> rfl
  · cases r <;> rfl

/-- STATUS after a reset: IS_EMPTY, IS_WORD_ALIGNED and the KIND bit; a buffer with no bit in it is not full (R32). -/
theorem toNat_statusReg_resetAccumulator (hc : s.cfg.Valid) :
    (statusReg (resetAccumulator s)).toNat = 5 + if s.cfg.kind = .md then 64 else 0 := by
  have hnotFull : (resetAccumulator s).filled ≠ (resetAccumulator s).cfg.C := hc.C_pos.ne
  rw [toNat_statusReg, if_neg hnotFull]
  cases hk : s.cfg.kind <;> simp [hk, phaseReady]

theorem totalSeenChunk_resetAccumulator (s : State) (k : Nat) : totalSeenChunk (resetAccumulator s) k = 0#64 := by
  simp [totalSeenChunk]

/-! ### What a command writes is overwritten by a reset (R272) -/

/-- The outcome is a next state that differs from `s` only in what a reset overwrites, in BUF and in `draws`. -/
def ForgottenByReset (s : State) (o : Host.Outcome State Fault Refusal) : Prop :=
  ∃ t, o = .next t ∧ SameHost s t ∧ resetConstruction s.cfg t.con = resetConstruction s.cfg s.con

/-- The reset of a state depends on these fields alone, but for BUF and `draws`. -/
theorem hardwareReset_congr (hhost : SameHost s t)
    (hcon : resetConstruction s.cfg t.con = resetConstruction s.cfg s.con) (buf : List Word) (draws : Nat) :
    { hardwareReset t with buf := buf, draws := draws } = { hardwareReset s with buf := buf, draws := draws } := by
  simp [hardwareReset, resetAccumulator, spendDraws, hhost.cfg, hhost.inputs, hhost.delivered, hcon]

theorem forgottenByReset_raiseError (c : Cause) : ForgottenByReset s (.next (raiseError c s)) :=
  ⟨_, rfl, ⟨rfl, rfl, rfl⟩, rfl⟩

theorem forgottenByReset_respondOk {u : State} (d : RspData) (hhost : SameHost s u)
    (hcon : resetConstruction s.cfg u.con = resetConstruction s.cfg s.con) :
    ForgottenByReset s (.next (respondOk d u)) :=
  ⟨_, rfl, ⟨hhost.cfg, hhost.inputs, hhost.delivered⟩, hcon⟩

/-- The one command that absorbs is a PROCESS command, and what it absorbs is overwritten (R160). -/
theorem submit_forgottenByReset (hs : Inv s) {src : List Word} {width : Nat} (bits : BitVec 16) (hw : 0 < width)
    (hsrc : width ≤ src.length * s.cfg.W) : ForgottenByReset s (submit src width bits s) := by
  rcases submit_cases hs bits hw hsrc with ⟨-, h⟩ | ⟨-, -, h⟩ | ⟨-, -, buf, draws, h, -, -⟩
  · exact h ▸ forgottenByReset_raiseError _
  · exact h ▸ forgottenByReset_raiseError _
  · exact h ▸ forgottenByReset_respondOk _ ⟨rfl, rfl, rfl⟩ (resetConstruction_absorbBits _ _ _)

theorem execResult_forgottenByReset (hs : Inv s) : ForgottenByReset s (execResult s) := by
  rcases execResult_cases hs with h | ⟨d, h⟩
  · exact h ▸ forgottenByReset_raiseError _
  · exact h ▸ forgottenByReset_respondOk _ (.refl s) rfl

theorem exec_forgottenByReset (hs : Inv s) {i : Instr} (hi : i.wf s.cfg = true) : ForgottenByReset s (exec i s) := by
  cases i with
  | processWord v bits => exact submit_forgottenByReset hs bits hs.cfg_valid.W_pos (by simp)
  | processBlock blk bits => exact submit_forgottenByReset hs bits hs.cfg_valid.C_pos (capacity_le_of_wf hi)
  | result => exact execResult_forgottenByReset hs
  | reset => exact forgottenByReset_respondOk _ ⟨rfl, rfl, rfl⟩ (resetConstruction_idem _ _)
  | readReg r => exact exec_readReg_present hi ▸ forgottenByReset_respondOk _ (.refl s) rfl
  | getBlock | clearErr => exact forgottenByReset_respondOk _ ⟨rfl, rfl, rfl⟩ rfl

theorem runCommand_forgottenByReset (hs : Inv s) {c : Command} (hp : Word.Shape s.cfg.W s.cfg.B c.payload) :
    ForgottenByReset s (runCommand c s) := by
  cases hd : decode s.cfg c.word c.payload with
  | ok i => exact runCommand_ok hd ▸ exec_forgottenByReset hs (decode_wf hs.cfg_valid hp hd)
  | error e => exact runCommand_illegal hd ▸ forgottenByReset_raiseError _

/-! ### BUF after `rst` (R161, R270) -/

/-- `rst` redraws the whole of BUF: stream bit `p` is free value number `draws + p`. -/
theorem streamBit_hardwareReset (hc : s.cfg.Valid) (hb : Word.Shape s.cfg.W s.cfg.B s.buf) {p : Nat}
    (hp : p < s.cfg.C) :
    streamBit s.cfg.bufEndian s.cfg.W (hardwareReset s).buf p = Config.freeBit (s.draws + p) :=
  (streamBit_redrawFrom hc hb (Nat.zero_le _) _ hp).trans (if_neg p.not_lt_zero)

/-! ### The statements -/

/-- Settles O53: every register is read from the accumulator's reset, which keeps the configuration. -/
theorem registersAfterReset : Obligations.RegistersAfterReset := by
  intro s t hc h
  simp only [regValue_of_reset h]
  refine ⟨BitVec.eq_of_toNat_eq ?_, rfl, rfl, totalSeenChunk_resetAccumulator s, rfl, rfl⟩
  refine (toNat_statusReg_resetAccumulator hc).trans ?_
  cases s.cfg.kind with
  | sponge => rfl
  | md => rfl

/-- Settles O54: a command writes, besides BUF and `draws`, only what the reset overwrites. -/
theorem resetForgetsTheCommandBeforeIt : Obligations.ResetForgetsTheCommandBeforeIt := by
  intro s c hs hp
  obtain ⟨t, ht, hhost, hcon⟩ := runCommand_forgottenByReset hs hp
  exact ⟨t, ht, hardwareReset_congr hhost hcon _ _⟩

/-- Settles O52: both resets are `resetAccumulator`; `rst` also redraws BUF and drops the response. -/
theorem hardwareResetHasTheEffectOfReset : Obligations.HardwareResetHasTheEffectOfReset := by
  intro s rest hin
  exact ⟨_, _, step_rst hin, exec_reset s, rfl, rfl, rfl, rfl, rfl, rfl, rfl, rfl, rfl,
    fun hc hb _ hp => streamBit_hardwareReset (s := { s with inputs := rest }) hc hb hp⟩

end Sys2Proof.Machine
end
